-- ==== Sys2Proof/Word.lean ====
section
/-! DEFINITION. The unit of data: the byte, with its bits numbered 7 down to 0
(spec 00_scope.md R9). Lengths, indices and counts are natural numbers with exact
arithmetic (R10), so they are `Nat` everywhere and have no type of their own. -/

namespace Sys2Proof

/-- A byte: an unsigned integer in 0..255 whose bit 7 is the most significant and
whose bit 0 is the LSB (R9). -/
abbrev Byte := BitVec 8

end Sys2Proof
end

