-- ==== Sys2Proof/Config.lean ====
section
/-! DEFINITION. What is fixed for the machine (spec 10_state.md R45): the terminator
byte, the names of the three spaces, the parameter `LENW`, and the one free value of
the model, the byte an index holds that nothing has written since power-up. -/

namespace Sys2Proof

/-- The three disjoint byte spaces (20_memory.md R50, R54): `P` the payload, `C` the
channel buffer, `O` the recovered output. -/
inductive Space where
  | p
  | c
  | o
  deriving DecidableEq, Repr

/-- `TERM`, the terminator byte: the constant 0x04, not programmable (00_scope.md R6). -/
def Config.terminator : Byte := 0x04

/-- FREE VALUE (70_reset_and_hazards.md R232, 93_implementation_defined.md section 2):
what a byte of a space holds that neither the host nor the core has written: an
arbitrary byte, the same at every read until written. It has no body, so nothing can be
proved of its value (log 1, safe). -/
opaque Config.powerUpByte : Space → Nat → Byte

/-- The open parameter `LENW` (00_scope.md R7): `some w` is a width of `w` bits, `none`
is infinity. The machine's lengths are unbounded naturals, and what is claimed of a
finite width takes the width as an argument (log 6). -/
abbrev Config.LenW := Option Nat

/-- A length or an index fits in `LENW` bits (00_scope.md R7). -/
abbrev Config.fitsLenW : Config.LenW → Nat → Prop
  | none, _ => True
  | some w, n => n < 2 ^ w

end Sys2Proof
end

