-- ==== Sys2Proof/Syntax.lean ====
section
/-! DEFINITION. The commands, one constructor per row of spec/opcode_table.json
(spec 30_encoding.md R81). A command has no operand field: every operand is implicit
(R85, R86). -/

namespace Sys2Proof

/-- The three commands a host can give the core (30_encoding.md R81, R91). -/
inductive Instr where
  /-- `NOP`, 0x00: do nothing (43_commands.md R171). -/
  | nop
  /-- `ENCODE`, 0x01: pack the payload and substitute its bits into the channel
  buffer's LSBs (43_commands.md R172 to R175). -/
  | encode
  /-- `DECODE`, 0x02: extract the channel buffer's LSBs, regroup them into bytes, stop at
  the terminator (43_commands.md R176 to R178). -/
  | decode
  deriving DecidableEq, Repr

end Sys2Proof
end

