-- ==== Sys2Proof/WellFormed.lean ====
section
/-! DEFINITION. What a well-formed command is. `Instr` has no operands (spec
30_encoding.md R85), so every `Instr` is well formed; the two checks that exist are on
the command byte's two fields (R80, R81). -/

namespace Sys2Proof

/-- The field `RSV`, bits 7:2 of the command byte (30_encoding.md R80). -/
def rsvField (w : Byte) : BitVec 6 := w.extractLsb' 2 6

/-- The field `OP`, bits 1:0 of the command byte (30_encoding.md R80). -/
def opField (w : Byte) : BitVec 2 := w.extractLsb' 0 2

/-- `RSV` must be 000000 (30_encoding.md R80). -/
def rsvIsZero (w : Byte) : Bool := rsvField w == 0

/-- `OP` = 11 names no command (30_encoding.md R81). -/
def opIsDefined (w : Byte) : Bool := opField w != 3

/-- A command byte that names a command: both fields pass their check (R80, R81). -/
def wellFormedByte (w : Byte) : Bool := rsvIsZero w && opIsDefined w

/-- A command as syntax has no field that could be out of range (R85): every constructor
is well formed. -/
def Instr.wellFormed : Instr → Bool
  | .nop => true
  | .encode => true
  | .decode => true

end Sys2Proof
end

