-- ==== Sys2Proof/Decode.lean ====
section
/-! DEFINITION. Decoding and encoding the command byte (spec 30_encoding.md R80 to R84):
the decoder is total, matches the whole byte and rejects the reserved bytes by name; the
encoder gives each command its byte of the opcode map. -/

namespace Sys2Proof

/-- Why a byte is no command. -/
inductive DecodeReject where
  /-- The byte is one of the 253 reserved ones, 0x03 to 0xFF (30_encoding.md R84). -/
  | reservedCommand (w : Byte)
  deriving DecidableEq, Repr

/-- The decoder of 30_encoding.md R82. -/
def decodeCommand (w : Byte) : Except DecodeReject Instr :=
  if w = 0x00 then .ok .nop
  else if w = 0x01 then .ok .encode
  else if w = 0x02 then .ok .decode
  else .error (.reservedCommand w)

/-- The command byte of each command (30_encoding.md R81). -/
def encodeCommand : Instr → Byte
  | .nop => 0x00
  | .encode => 0x01
  | .decode => 0x02

/-- What the decoder reads from a row of spec/opcode_table.json: every command is one
byte (R80), so a row of another length names none. -/
def decodeTableWord (nbits w : Nat) : Option Instr :=
  if nbits = 8 then
    match decodeCommand (BitVec.ofNat 8 w) with
    | .ok i => some i
    | .error _ => none
  else none

end Sys2Proof
end

