-- ==== Sys2Proof/Machine/State.lean ====
section
/-! DEFINITION. The state of the machine as plain data (spec 10_state.md R20, which lists
the complete state), the host agent's actions (00_scope.md R13, 30_encoding.md R92), the
reasons a step can stop, and the state after reset (10_state.md R43). -/

namespace Sys2Proof.Machine

/-- The sequencing state (10_state.md R23), this hardware's form of a program counter
together with `IDX` (R22). -/
inductive Fsm where
  /-- No operation has run since reset. -/
  | idle
  /-- An ENCODE command is in progress. -/
  | encoding
  /-- A DECODE command is in progress: the source's state `ACCUMULATING`. -/
  | accumulating
  /-- The last command has ended, with or without a fault. -/
  | finished
  deriving DecidableEq, Repr

/-- The two faults the core can raise (60_exceptions.md R200). Raising one is a next
state (R206), so this is no `Fault` of the model. -/
inductive CoreFault where
  /-- ENCODE with `8 * (PLEN + 1) > CLEN` (R201). -/
  | capacityError
  /-- A reserved command byte while the core is not busy (R202). -/
  | illegalCommand
  deriving DecidableEq, Repr

/-- One space: the bytes written so far as (index, byte) pairs, indices strictly rising.
An index that is not listed has not been written (log 2). -/
abbrev Memory := List Host.Cell

/-- What a host write on the register port carries (10_state.md R30): the register and
the value, each at the register's width. -/
inductive RegWrite where
  /-- Register 0, `CTRL`: the issue of the command byte `w` (R31). -/
  | ctrl (w : Byte)
  /-- Register 1, `STATUS`: read only (R32). -/
  | status (v : Byte)
  /-- Register 2, `PLEN` (R38). -/
  | plen (n : Nat)
  /-- Register 3, `CLEN` (R39). -/
  | clen (n : Nat)
  /-- Register 4, `OLEN`: read only (R40). -/
  | olen (n : Nat)
  /-- Register number `5 + k`, which does not exist (R30). -/
  | absent (k : Nat) (n : Nat)
  deriving DecidableEq, Repr

/-- A register as a host read names it (10_state.md R30). -/
inductive HostReg where
  | ctrl
  | status
  | plen
  | clen
  | olen
  /-- Register number `5 + k`, which does not exist (R30). -/
  | absent (k : Nat)
  deriving DecidableEq, Repr

/-- One action of the host (00_scope.md R13), in the order its script lists them: the
lines of the host-script notation (30_encoding.md R92) and the reset input
(70_reset_and_hazards.md R230). -/
inductive HostAction where
  /-- `RESET`: the reset input (R230). -/
  | reset
  /-- A reset and a host write at the same time: the reset wins (R208, R230). -/
  | resetWith (w : RegWrite)
  /-- `WR reg, n`, `NOP`, `ENCODE`, `DECODE`, `CMD w`: a write on the register port. -/
  | write (w : RegWrite)
  /-- `RD reg`: a read on the register port. -/
  | read (r : HostReg)
  /-- `LOADP`, `LOADC` (with `a` = 0), or any host write of bytes to a space (R41). -/
  | load (sp : Space) (a : Nat) (bs : List Byte)
  /-- `DUMPC a, b`, `DUMPO a, b`, or any host read of a range of a space (R41). -/
  | dump (sp : Space) (a b : Nat)
  /-- `WAIT`: the host reads `STATUS` until `BUSY` = 0 (R92); how many reads is open, and
  none of them is noted (log 9). -/
  | wait
  /-- The host lets the core have `n` steps before its next action (43_commands.md R181:
  the choice of how the two agents interleave; log 3). -/
  | run (n : Nat)
  deriving DecidableEq, Repr

/-- What the host has read: the value of a register, or the bytes of a range. -/
inductive Seen where
  | reg (r : HostReg) (v : Nat)
  | bytes (sp : Space) (a : Nat) (bs : List Byte)
  deriving DecidableEq, Repr

/-- Why the machine itself stops with a fault: never. The core's own two faults are
entries that leave a next state (60_exceptions.md R206), no step of a running operation
can fault (R200), and no memory access can (20_memory.md R55); so there is no
constructor, and nobody raises one. -/
inductive Fault
  deriving DecidableEq, Repr

/-- Why a step has no meaning. -/
inductive Refusal where
  /-- Raised by an arm of `exec` whose command has no meaning yet; no arm does. Safe. -/
  | notModelled (mnemonic : String)
  /-- Raised by a host action that reads or writes P, C or O while `STATUS.BUSY` = 1: the
  spec gives no behaviour and its treatment is to refuse (10_state.md R41,
  93_implementation_defined.md U1; log 5). Unsafe for a system whose host does so. -/
  | hostMemoryWhileBusy (sp : Space)
  deriving DecidableEq, Repr

/-- The state of the machine (10_state.md R20): every part that rule lists, under its
name there, and the host agent (`script`, `seen`), which is the model's own. -/
structure State where
  /-- `FSM` (R23). -/
  fsm : Fsm
  /-- `IDX`, the channel index (R24). -/
  idx : Nat
  /-- `PIDX`, the packer's byte index (R25). -/
  pidx : Nat
  /-- `PBIT`, the packer's bit counter (R26). -/
  pbit : BitVec 3
  /-- `SR`, the packer's shift register (R27). -/
  sr : Byte
  /-- `ACC`, the decoder's accumulator (R28). -/
  acc : Byte
  /-- `BITPOS`, the decoder's bit-position counter (R29). -/
  bitpos : BitVec 3
  /-- `STATUS.ERR` (R35). -/
  err : Bool
  /-- `TERM_F`, that is `STATUS.TERM` (R36). -/
  termFound : Bool
  /-- `STATUS.CAUSE` (R37). -/
  cause : BitVec 2
  /-- `PLEN`, the payload length (R38). -/
  plen : Nat
  /-- `CLEN`, the channel buffer length (R39). -/
  clen : Nat
  /-- `OLEN`, the output length (R40). -/
  olen : Nat
  /-- Space `P` (20_memory.md R51). -/
  memP : Memory
  /-- Space `C` (20_memory.md R52). -/
  memC : Memory
  /-- Space `O` (20_memory.md R53). -/
  memO : Memory
  /-- The host's remaining actions, first one first (log 3). -/
  script : List HostAction
  /-- What the host has read, oldest first, but for the reads of a `WAIT` (log 4, log 9). -/
  seen : List Seen
  deriving DecidableEq, Repr

/-- The machine right after power-up and reset: every register at the value of
10_state.md R43, no byte of any space written (70_reset_and_hazards.md R232), and a host
that has done nothing and has nothing to do. -/
def State.reset : State where
  fsm := .idle
  idx := 0
  pidx := 0
  pbit := 0
  sr := 0x00
  acc := 0x00
  bitpos := 0
  err := false
  termFound := false
  cause := 0
  plen := 0
  clen := 0
  olen := 0
  memP := []
  memC := []
  memO := []
  script := []
  seen := []

end Sys2Proof.Machine
end

