-- ==== Sys2Proof/Machine/Ops.lean ====
section
/-! DEFINITION. The named operations over bits, memory and registers: reading and writing
one byte of a space (spec 20_memory.md R55), one update per register, the fault entry
(60_exceptions.md R206) with the clearing of its flags, and the reset
(70_reset_and_hazards.md R230). -/

namespace Sys2Proof.Machine

/-! ### Bits of a byte -/

/-- `b[k]` of 00_scope.md R9. -/
def bitOf (b : Byte) (k : Nat) : Bool := b.getLsbD k

/-- The LSB, `byte & 1` (42_channel_decoder.md R142). -/
def lsbOf (b : Byte) : Bool := bitOf (b &&& 0x01) 0

/-- `b` with bit `k` replaced by `v` (42_channel_decoder.md R143, R152). -/
def putBit (b : Byte) (k : Nat) (v : Bool) : Byte :=
  if v then b ||| ((0x01 : Byte) <<< k) else b &&& ~~~((0x01 : Byte) <<< k)

/-- The substitution of one bit into one channel byte: OR with 0x01 or AND with 0xFE
(41_channel_encoder.md R122). -/
def setLsb (c : Byte) (v : Bool) : Byte := if v then c ||| 0x01 else c &&& 0xFE

/-! ### One space -/

/-- The byte written at index `i`, if one has been. -/
def Memory.find : Memory → Nat → Option Byte
  | [], _ => none
  | (j, v) :: m, i => if i = j then some v else Memory.find m i

/-- Write byte `v` at index `i`, keeping the indices strictly rising. -/
def Memory.store : Memory → Nat → Byte → Memory
  | [], i, v => [(i, v)]
  | (j, u) :: m, i, v =>
    if i < j then (i, v) :: (j, u) :: m
    else if i = j then (i, v) :: m
    else (j, u) :: Memory.store m i v

/-- The canonical form: indices strictly rising, so that equal memories are equal data. -/
abbrev Memory.wf (m : Memory) : Prop := m.Pairwise (fun x y => x.1 < y.1)

/-! ### The three spaces -/

/-- The space named `sp`. -/
def State.space (s : State) : Space → Memory
  | .p => s.memP
  | .c => s.memC
  | .o => s.memO

/-- Replace the space named `sp`. -/
def State.setSpace (s : State) (sp : Space) (m : Memory) : State :=
  match sp with
  | .p => { s with memP := m }
  | .c => { s with memC := m }
  | .o => { s with memO := m }

/-- What an index reads as that nothing has written (70_reset_and_hazards.md R232):
the free value of its space and index. -/
def unwritten (sp : Space) (i : Nat) : Byte := Config.powerUpByte sp i

/-- `MemRead(S:i, 1)` (20_memory.md R55). -/
def State.readMem (s : State) (sp : Space) (i : Nat) : Byte :=
  ((s.space sp).find i).getD (unwritten sp i)

/-- `MemWrite(S:i, 1, v)` (20_memory.md R55). -/
def State.writeMem (s : State) (sp : Space) (i : Nat) (v : Byte) : State :=
  s.setSpace sp ((s.space sp).store i v)

/-- The bytes `S[a..b)` (00_scope.md R11). -/
def State.readRange (s : State) (sp : Space) (a b : Nat) : List Byte :=
  (List.range' a (b - a)).map (s.readMem sp)

/-- Write the bytes of `bs` to `S[a]`, `S[a + 1]`, … in that order
(30_encoding.md R92, `LOADP` and `LOADC`). -/
def State.writeBytes (s : State) (sp : Space) (a : Nat) : List Byte → State
  | [] => s
  | b :: bs => State.writeBytes (s.writeMem sp a b) sp (a + 1) bs

/-! ### One update per register or group of registers -/

/-- `FSM <- f` (00_scope.md R14). -/
def State.setFsm (s : State) (f : Fsm) : State := { s with fsm := f }

/-- `IDX <- n`. -/
def State.setIdx (s : State) (n : Nat) : State := { s with idx := n }

/-- `PIDX`, `PBIT` and `SR`, the packer's registers (40_bit_packer.md R104). -/
def State.setPacker (s : State) (pidx : Nat) (pbit : BitVec 3) (sr : Byte) : State :=
  { s with pidx := pidx, pbit := pbit, sr := sr }

/-- `ACC` and `BITPOS`, the decoder's working registers. -/
def State.setAcc (s : State) (acc : Byte) (bitpos : BitVec 3) : State :=
  { s with acc := acc, bitpos := bitpos }

/-- `STATUS.ERR`, `STATUS.CAUSE` and `STATUS.TERM`. -/
def State.setFlags (s : State) (err : Bool) (cause : BitVec 2) (term : Bool) : State :=
  { s with err := err, cause := cause, termFound := term }

/-- `PLEN <- n`. -/
def State.setPlen (s : State) (n : Nat) : State := { s with plen := n }

/-- `CLEN <- n`. -/
def State.setClen (s : State) (n : Nat) : State := { s with clen := n }

/-- `OLEN <- n`. -/
def State.setOlen (s : State) (n : Nat) : State := { s with olen := n }

/-- The host's remaining actions. -/
def State.setScript (s : State) (as : List HostAction) : State := { s with script := as }

/-- The host notes what it has read. -/
def State.observe (s : State) (x : Seen) : State := { s with seen := s.seen ++ [x] }

/-! ### Faults and reset -/

/-- The cause code of a fault (60_exceptions.md R200). -/
def CoreFault.code : CoreFault → BitVec 2
  | .capacityError => 1
  | .illegalCommand => 2

/-- `raise F`, the fault entry of 60_exceptions.md R206: it sets `ERR`, the cause and
`FSM`, clears `TERM`, and saves and changes nothing else. -/
def State.raise (s : State) (f : CoreFault) : State :=
  (s.setFlags true f.code false).setFsm .finished

/-- `STATUS.ERR <- 0; STATUS.CAUSE <- 0; STATUS.TERM <- 0`: what the acceptance of an
ENCODE or a DECODE does first (43_commands.md R172, R176). There is no return command:
this, or reset, is how a fault's flags are cleared (60_exceptions.md R209). -/
def State.clearFlags (s : State) : State := s.setFlags false 0 false

/-- The reset input (70_reset_and_hazards.md R230, R232): every register to its reset
value, no byte of memory touched, the host's own record left alone. -/
def State.resetInput (s : State) : State :=
  { State.reset with
    memP := s.memP, memC := s.memC, memO := s.memO, script := s.script, seen := s.seen }

end Sys2Proof.Machine
end

