-- ==== Sys2Proof/Machine/Operands.lean ====
section
/-! DEFINITION. The implicit operands of the commands (spec 30_encoding.md R86): the
number of bits an ENCODE writes, the capacity check, the framed message, and the contents
of the three spaces that the length registers mark. -/

namespace Sys2Proof.Machine

/-- `nbits` = `8 * (PLEN + 1)`, computed exactly (00_scope.md R10, 40_bit_packer.md R103). -/
def State.nbits (s : State) : Nat := 8 * (s.plen + 1)

/-- The capacity check passes: `8 * (PLEN + 1) <= CLEN` (41_channel_encoder.md R121). -/
def State.fits (s : State) : Bool := decide (s.nbits ≤ s.clen)

/-- Byte `j` of the framed message: `P[j]`, or the terminator from `PLEN` on
(30_encoding.md R87, 40_bit_packer.md R107). -/
def State.frameByte (s : State) (j : Nat) : Byte :=
  if j < s.plen then s.readMem .p j else Config.terminator

/-- The payload, `P[0..PLEN)` (20_memory.md R51). -/
def State.payload (s : State) : List Byte := s.readRange .p 0 s.plen

/-- The channel buffer, `C[0..CLEN)` (20_memory.md R52). -/
def State.channel (s : State) : List Byte := s.readRange .c 0 s.clen

/-- The recovered bytes, `O[0..OLEN)` (20_memory.md R53). -/
def State.output (s : State) : List Byte := s.readRange .o 0 s.olen

end Sys2Proof.Machine
end

