-- ==== Sys2Proof/Machine/Flags.lean ====
section
/-! DEFINITION. The `STATUS` register (spec 10_state.md R32 to R37): `BUSY` and `FIN` as
functions of `FSM`, the byte a read returns, and what a read of each host-visible register
returns (R30). -/

namespace Sys2Proof.Machine

/-- `BUSY` as a function of `FSM`: 1 exactly in `ENCODING` and `ACCUMULATING` (R33). -/
def Fsm.busy : Fsm → Bool
  | .idle => false
  | .encoding => true
  | .accumulating => true
  | .finished => false

/-- `FIN` as a function of `FSM`: 1 exactly in `FINISHED` (R34). -/
def Fsm.fin : Fsm → Bool
  | .idle => false
  | .encoding => false
  | .accumulating => false
  | .finished => true

/-- `STATUS.BUSY`: an operation is in progress (R33). -/
def State.busy (s : State) : Bool := s.fsm.busy

/-- The byte of `STATUS`: bits 7:6 zero, `CAUSE` in 5:4, then `TERM`, `ERR`, `FIN`,
`BUSY` in bits 3 to 0 (R32). -/
def statusByte (f : Fsm) (err term : Bool) (cause : BitVec 2) : Byte :=
  (0#2 ++ cause ++ BitVec.ofBool term ++ BitVec.ofBool err
    ++ BitVec.ofBool f.fin ++ BitVec.ofBool f.busy : BitVec 8)

/-- The value of the register `STATUS` (R32). -/
def State.status (s : State) : Byte := statusByte s.fsm s.err s.termFound s.cause

/-- The number of a register on the register port (R30). -/
def HostReg.number : HostReg → Nat
  | .ctrl => 0
  | .status => 1
  | .plen => 2
  | .clen => 3
  | .olen => 4
  | .absent k => 5 + k

/-- The register a number names (R30). -/
def HostReg.ofNumber : Nat → HostReg
  | 0 => .ctrl
  | 1 => .status
  | 2 => .plen
  | 3 => .clen
  | 4 => .olen
  | k + 5 => .absent k

/-- What a host read of a register returns (R30, R31, R32, R38, R39, R40). -/
def State.readReg (s : State) : HostReg → Nat
  | .ctrl => 0
  | .status => s.status.toNat
  | .plen => s.plen
  | .clen => s.clen
  | .olen => s.olen
  | .absent _ => 0

end Sys2Proof.Machine
end

