-- ==== Sys2Proof/Machine/Decoder.lean ====
section
/-! DEFINITION. The Channel Decoder's operations (spec 42_channel_decoder.md R151 to R153)
and the core's step while a DECODE runs (43_commands.md R177). -/

namespace Sys2Proof.Machine

/-- `DEC_INIT` (R151). -/
def State.decInit (s : State) : State := ((s.setIdx 0).setAcc 0x00 0).setOlen 0

/-- The wire `acc'` of `DEC_BEAT`: `ACC` with bit `7 - BITPOS` replaced by the LSB of
`C[IDX]` (R152). -/
def State.decAcc (s : State) : Byte :=
  putBit s.acc (7 - s.bitpos.toNat) (lsbOf (s.readMem .c s.idx))

/-- `DEC_BEAT`: it consumes one channel byte; on the eighth bit the byte is complete and
either is the terminator, which ends the operation, or is appended to `O` (R152). -/
def State.decBeat (s : State) : State :=
  if s.bitpos = 7 then
    if s.decAcc = Config.terminator then
      (((s.setIdx (s.idx + 1)).setAcc 0x00 0).setFlags s.err s.cause true).setFsm .finished
    else
      (((s.setIdx (s.idx + 1)).setAcc 0x00 0).writeMem .o s.olen s.decAcc).setOlen (s.olen + 1)
  else
    (s.setIdx (s.idx + 1)).setAcc s.decAcc (s.bitpos + 1)

/-- `DEC_EXHAUST`: the channel buffer is used up (R153). -/
def State.decExhaust (s : State) : State := s.setFsm .finished

/-- The core's step when `FSM` = `ACCUMULATING` (43_commands.md R177). -/
def State.decodeStep (s : State) : State :=
  if s.idx < s.clen then s.decBeat else s.decExhaust

end Sys2Proof.Machine
end

