-- ==== Sys2Proof/Machine/Packer.lean ====
section
/-! DEFINITION. The Bit Packer's two operations (spec 40_bit_packer.md R106, R107): it
gives the bits of the framed message one at a time, most significant first. -/

namespace Sys2Proof.Machine

/-- `PACK_INIT` (R106). -/
def State.packInit (s : State) : State := s.setPacker 0 0 0x00

/-- The wire `cur` of `PACK_NEXT`: the byte loaded at the start of a byte, the shift
register in the middle of one (R107). -/
def State.packCur (s : State) : Byte :=
  if s.pbit = 0 then s.frameByte s.pidx else s.sr

/-- The bit `PACK_NEXT` returns (R107). -/
def State.packBit (s : State) : Bool := bitOf s.packCur 7

/-- The registers after `PACK_NEXT` (R107). -/
def State.packNext (s : State) : State :=
  s.setPacker
    (if s.pbit = 7 then s.pidx + 1 else s.pidx)
    (if s.pbit = 7 then 0 else s.pbit + 1)
    (s.packCur <<< 1)

end Sys2Proof.Machine
end

