-- ==== Sys2Proof/Machine/Encoder.lean ====
section
/-! DEFINITION. The Channel Encoder's beat (spec 41_channel_encoder.md R126) and the core's
step while an ENCODE runs (43_commands.md R173, R174). -/

namespace Sys2Proof.Machine

/-- `ENC_BEAT`: the packer's next bit into the LSB of `C[IDX]`, always written (R126). -/
def State.encBeat (s : State) : State :=
  (s.packNext.writeMem .c s.idx (setLsb (s.readMem .c s.idx) s.packBit)).setIdx (s.idx + 1)

/-- The core's step when `FSM` = `ENCODING` (43_commands.md R173). -/
def State.encodeStep (s : State) : State :=
  if s.idx < s.nbits then s.encBeat else s.setFsm .finished

end Sys2Proof.Machine
end

