-- ==== Sys2Proof/Machine/Commands.lean ====
section
/-! DEFINITION. The meanings of the three commands: what a host write of the command byte
to `CTRL` does, at once and indivisibly (spec 43_commands.md R170 to R172, R176), and what
a reserved byte does (R179). The work of an accepted ENCODE or DECODE is then done by the
core's steps (R173, R177). -/

namespace Sys2Proof.Machine

/-- A write to `CTRL` while the core is busy is ignored; otherwise the command's own effect
happens (R170). -/
def State.unlessBusy (s : State) (effect : State → State) :
    Host.Outcome State Fault Refusal :=
  .next (if s.busy then s else effect s)

/-- The start of an ENCODE that passed its capacity check (R172). -/
def State.startEncode (s : State) : State :=
  ((s.clearFlags.packInit).setIdx 0).setFsm .encoding

/-- The acceptance of an ENCODE: flags cleared, then the capacity check, then the fault or
the start (R172). -/
def State.acceptEncode (s : State) : State :=
  if s.fits then s.startEncode else s.clearFlags.raise .capacityError

/-- The acceptance of a DECODE (R176). -/
def State.acceptDecode (s : State) : State :=
  (s.clearFlags.decInit).setFsm .accumulating

/-- `NOP`: it changes no register, no flag and no memory byte (R171). -/
def execNop (s : State) : Host.Outcome State Fault Refusal := s.unlessBusy (fun t => t)

/-- `ENCODE`, acceptance (R172). -/
def execEncode (s : State) : Host.Outcome State Fault Refusal :=
  s.unlessBusy State.acceptEncode

/-- `DECODE`, acceptance (R176). -/
def execDecode (s : State) : Host.Outcome State Fault Refusal :=
  s.unlessBusy State.acceptDecode

/-- A reserved command byte: `IllegalCommand` when the core is not busy (R179, R84). -/
def execReserved (s : State) : Host.Outcome State Fault Refusal :=
  s.unlessBusy (fun t => t.raise .illegalCommand)

end Sys2Proof.Machine
end

