-- ==== Sys2Proof/Machine/HostPort.lean ====
section
/-! DEFINITION. The two agents' moves: the core's step (spec 43_commands.md R181), and what
each action of the host does (10_state.md R30, R41; 30_encoding.md R92; 43_commands.md
R170; 70_reset_and_hazards.md R230). -/

namespace Sys2Proof.Machine

/-- The core's step: an encoder or decoder step while an operation is in progress, and no
step (the state stays) in `IDLE` and `FINISHED` (43_commands.md R181; log 7). -/
def State.coreStep (s : State) : State :=
  match s.fsm with
  | .idle => s
  | .encoding => s.encodeStep
  | .accumulating => s.decodeStep
  | .finished => s

/-- A host write of the byte `w` to `CTRL` (43_commands.md R170): the decoder of R82, then
the command's meaning, or the illegal command's. -/
def State.issue (s : State) (w : Byte) : Host.Outcome State Fault Refusal :=
  match decodeCommand w with
  | .ok i => exec i s
  | .error _ => execReserved s

/-- A host write on the register port (10_state.md R30): `PLEN` and `CLEN` are written when
the core is not busy (R38, R39, R41), the read-only and absent registers never. -/
def State.writeReg (s : State) : RegWrite → Host.Outcome State Fault Refusal
  | .ctrl w => s.issue w
  | .status _ => .next s
  | .plen n => .next (if s.busy then s else s.setPlen n)
  | .clen n => .next (if s.busy then s else s.setClen n)
  | .olen _ => .next s
  | .absent _ _ => .next s

/-- A host write of the bytes `bs` from index `a` of a space: defined when the core is not
busy (10_state.md R41), refused by name when it is (93_implementation_defined.md U1),
unless the action names no byte. -/
def State.loadBytes (s : State) (sp : Space) (a : Nat) (bs : List Byte) :
    Host.Outcome State Fault Refusal :=
  if s.busy && !bs.isEmpty then .refused (.hostMemoryWhileBusy sp)
  else .next (s.writeBytes sp a bs)

/-- A host read of the bytes `S[a..b)`, under the same condition (R41, U1). -/
def State.dumpBytes (s : State) (sp : Space) (a b : Nat) :
    Host.Outcome State Fault Refusal :=
  if s.busy && decide (a < b) then .refused (.hostMemoryWhileBusy sp)
  else .next (s.observe (.bytes sp a (s.readRange sp a b)))

/-- One move when the host's script is `act :: rest`: the host's action, which leaves `rest`
to do, or the core's step when the action is to let the core go on (log 3). `WAIT` is reads
of `STATUS` until `BUSY` = 0 (30_encoding.md R92), which leaves open how many: `wait` takes a
core's step while busy and notes none of those reads in `seen` (DESIGN CHOICE, log 9). -/
def State.hostStep (s : State) (act : HostAction) (rest : List HostAction) :
    Host.Outcome State Fault Refusal :=
  match act with
  | .reset => .next (s.setScript rest).resetInput
  | .resetWith _ => .next (s.setScript rest).resetInput
  | .write w => (s.setScript rest).writeReg w
  | .read r => .next ((s.setScript rest).observe (.reg r (s.readReg r)))
  | .load sp a bs => (s.setScript rest).loadBytes sp a bs
  | .dump sp a b => (s.setScript rest).dumpBytes sp a b
  | .wait => .next (if s.busy then s.coreStep else s.setScript rest)
  | .run 0 => .next (s.setScript rest)
  | .run (n + 1) => .next (s.coreStep.setScript (.run n :: rest))

/-- One move of the machine: the host's when its script is not empty, else the core's. -/
def State.move (s : State) : Host.Outcome State Fault Refusal :=
  match s.script with
  | [] => .next s.coreStep
  | act :: rest => s.hostStep act rest

/-- The host's next action becomes the write of a command byte to `CTRL`. -/
def State.withCommand (s : State) (w : Byte) : State :=
  s.setScript (.write (.ctrl w) :: s.script)

end Sys2Proof.Machine
end

