-- ==== Sys2Proof/Machine/Step.lean ====
section
/-! DEFINITION. One step of the machine (spec 43_commands.md R181), and how a command byte
is put where the next step takes it from: the host's next write to `CTRL` (R170; log 8). -/

namespace Sys2Proof.Machine

/-- One step: the host's next action, or the core's step. -/
def step (s : State) : Host.Outcome State Fault Refusal := s.move

/-- `s` with the host about to write the command `w` (of `nbits` bits, one byte) to `CTRL`:
the core fetches nothing (20_memory.md R69), a command is given by that write (log 8). -/
def State.withFetchWord (s : State) (nbits w : Nat) : State :=
  s.withCommand (BitVec.ofNat 8 (w % 2 ^ nbits))

end Sys2Proof.Machine
end

