-- ==== Sys2Proof/Machine/Codec.lean ====
section
/-! DEFINITION. The source's three pure functions, the normative meaning of the hardware
(spec 00_scope.md R12): `pack` (40_bit_packer.md R100), `encode` (41_channel_encoder.md
R120, for bit sequences of any length, R130) and `decode` (42_channel_decoder.md R140). -/

namespace Sys2Proof.Machine

/-- `msb8(b)`: the eight bits of a byte, most significant first (00_scope.md R11). -/
def Codec.msb8 (b : Byte) : List Bool :=
  [bitOf b 7, bitOf b 6, bitOf b 5, bitOf b 4, bitOf b 3, bitOf b 2, bitOf b 1, bitOf b 0]

/-- `byte_of(q)`: the byte whose bits, most significant first, are `q` (00_scope.md R11):
each bit enters at bit 0 and moves the earlier ones up. -/
def Codec.byteOf (q : List Bool) : Byte :=
  q.foldl (fun b v => setLsb (b <<< 1) v) 0x00

/-- `pack(payload)`: the bits of the payload's bytes and then of the terminator, each
byte most significant bit first (40_bit_packer.md R100). -/
def Codec.pack (payload : List Byte) : List Bool :=
  payload.flatMap Codec.msb8 ++ Codec.msb8 Config.terminator

/-- The loop of `encode`: bit `i` into the LSB of channel byte `i`
(41_channel_encoder.md R122), the bytes beyond the bits left alone (R123). -/
def Codec.substitute : List Byte → List Bool → List Byte
  | c :: cs, v :: vs => setLsb c v :: Codec.substitute cs vs
  | cs, [] => cs
  | [], _ :: _ => []

/-- `encode(channel_buffer, bits)` (41_channel_encoder.md R120); `none` is the failure
`CapacityError`, decided on the lengths before any byte is changed (R121). -/
def Codec.encode (channel : List Byte) (bits : List Bool) : Option (List Byte) :=
  if bits.length ≤ channel.length then some (Codec.substitute channel bits) else none

/-- What `decode` does: the recovered bytes, whether the terminator ended it, and how many
channel bytes it read (42_channel_decoder.md R150). -/
structure DecodeResult where
  bytes : List Byte
  found : Bool
  read : Nat
  deriving DecidableEq, Repr

/-- The loop of `decode` (42_channel_decoder.md R140), with the accumulator, the bit
position, the output so far and the number of channel bytes read so far. -/
def Codec.decodeLoop : List Byte → Byte → BitVec 3 → List Byte → Nat → DecodeResult
  | [], _, _, out, n => { bytes := out, found := false, read := n }
  | c :: cs, acc, bitpos, out, n =>
    if bitpos = 7 then
      if putBit acc (7 - bitpos.toNat) (lsbOf c) = Config.terminator then
        { bytes := out, found := true, read := n + 1 }
      else
        Codec.decodeLoop cs 0x00 0 (out ++ [putBit acc (7 - bitpos.toNat) (lsbOf c)]) (n + 1)
    else
      Codec.decodeLoop cs (putBit acc (7 - bitpos.toNat) (lsbOf c)) (bitpos + 1) out (n + 1)

/-- `decode` with both things it does not return: how it stopped and how far it read. -/
def Codec.decodeRun (channel : List Byte) : DecodeResult :=
  Codec.decodeLoop channel 0x00 0 [] 0

/-- `decode(channel_buffer)` (42_channel_decoder.md R140). -/
def Codec.decode (channel : List Byte) : List Byte := (Codec.decodeRun channel).bytes

/-- The reconstructed byte of group `g`: the LSBs of channel bytes `8g` to `8g + 7`, the
first one most significant (42_channel_decoder.md R144). -/
def Codec.groupByte (channel : List Byte) (g : Nat) : Byte :=
  Codec.byteOf (((channel.drop (8 * g)).take 8).map lsbOf)

/-- The reconstructed bytes of all whole groups, in order (42_channel_decoder.md R150). -/
def Codec.groupBytes (channel : List Byte) : List Byte :=
  (List.range (channel.length / 8)).map (Codec.groupByte channel)

end Sys2Proof.Machine
end

