-- ==== Sys2Proof/Safety.lean ====
section
/-! DEFINITION. The terms claims are made in: the invariant of every reachable state (spec
10_state.md R44, with R37, R108, R150 and R158 for the running operations), what fits a
width `LENW` (00_scope.md R7), the core's steps with a host that only waits, and the end of
a run (43_commands.md R183). -/

namespace Sys2Proof.Machine

/-- `n` steps of the core with nothing from the host between them (43_commands.md R182). -/
def State.coreSteps (s : State) : Nat → State
  | 0 => s
  | n + 1 => State.coreSteps s.coreStep n

/-- The end of a run: the host's script is done and no operation is in progress (R183). -/
def State.ended (s : State) : Bool := s.script.isEmpty && !s.busy

/-- Every space is in its canonical form. -/
structure State.MemoryWf (s : State) : Prop where
  p : s.memP.wf
  c : s.memC.wf
  o : s.memO.wf

/-- While an ENCODE runs (R44 d, and R108 for `SR`): it fits, `IDX` has not passed the last
bit, the packer's counters are the quotient and the remainder of `IDX`, and `SR` holds the
bits of the current byte not yet emitted, left-aligned. -/
structure State.EncodeInv (s : State) : Prop where
  fits : s.nbits ≤ s.clen
  idx : s.idx ≤ s.nbits
  pidx : s.pidx = s.idx / 8
  pbit : s.pbit.toNat = s.idx % 8
  sr : s.sr = if s.idx % 8 = 0 then 0x00 else s.frameByte s.pidx <<< (s.idx % 8)

/-- While a DECODE runs (R44 e, and R150, R158 for `O`): `IDX` has not passed the buffer,
the decoder's counters are the quotient and the remainder of `IDX`, `ACC` holds the LSBs of
the current group collected so far and zeros elsewhere, and the bytes appended are those of
the groups before, none of them the terminator. -/
structure State.DecodeInv (s : State) : Prop where
  idx : s.idx ≤ s.clen
  bitpos : s.bitpos.toNat = s.idx % 8
  olen : s.olen = s.idx / 8
  acc : ∀ k < 8, bitOf s.acc (7 - k) =
    if k < s.bitpos.toNat then lsbOf (s.readMem .c (8 * s.olen + k)) else false
  output : s.output = (Codec.groupBytes s.channel).take s.olen
  noTerm : Config.terminator ∉ s.output

/-- The invariant of every reachable state (R44 a to e; R37 for cause 3; R23 for `IDLE`, no
operation since reset). Its clause (a) is in the types of `PBIT` and `BITPOS`. -/
structure State.Inv (s : State) : Prop where
  errCause : s.err = true ↔ s.cause ≠ 0
  cause : s.cause ≠ 3
  errEnds : s.err = true → s.fsm = .finished
  termEnds : s.termFound = true → s.fsm = .finished ∧ s.err = false
  idle : s.fsm = .idle → s.idx = 0 ∧ s.pidx = 0 ∧ s.pbit = 0 ∧ s.sr = 0x00 ∧ s.acc = 0x00 ∧
    s.bitpos = 0 ∧ s.olen = 0
  encoding : s.fsm = .encoding → s.EncodeInv
  decoding : s.fsm = .accumulating → s.DecodeInv
  memory : s.MemoryWf

/-- A host action writes no length that does not fit in `LENW` bits (R38, R39). -/
def HostAction.FitsLenW (w : Config.LenW) : HostAction → Prop
  | .write (.plen n) => Config.fitsLenW w n
  | .write (.clen n) => Config.fitsLenW w n
  | _ => True

/-- Every register of width `LENW`, and every length the host is still to write, fits in
`LENW` bits (R7). -/
structure State.FitsLenW (w : Config.LenW) (s : State) : Prop where
  idx : Config.fitsLenW w s.idx
  pidx : Config.fitsLenW w s.pidx
  plen : Config.fitsLenW w s.plen
  clen : Config.fitsLenW w s.clen
  olen : Config.fitsLenW w s.olen
  script : ∀ a ∈ s.script, a.FitsLenW w

end Sys2Proof.Machine
end

