-- ==== Sys2Proof/Certificates/Slice0/Obligations.lean ====
section
/-! DEFINITION. The statements for the provers, each from the numbered rules of spec/. A
statement about "the core's steps" takes a state whose host script is empty and runs the
machine itself (`Host.Core.run Sys2Proof.core`), so that nothing comes from the host in
between (spec 43_commands.md R182). -/

open Sys2Proof Sys2Proof.Machine

/-! ### Encoding of commands (30_encoding.md) -/

/-- R82: every one of the 256 bytes has exactly one of the four outcomes. -/
def Obligations.DecoderFourOutcomes : Prop :=
  ∀ w : Byte,
    (decodeCommand w = .ok .nop ↔ w = 0x00) ∧
    (decodeCommand w = .ok .encode ↔ w = 0x01) ∧
    (decodeCommand w = .ok .decode ↔ w = 0x02) ∧
    (decodeCommand w = .error (.reservedCommand w) ↔ 3 ≤ w.toNat)

/-- R81: the bytes of the opcode map, written out, and some reserved ones (R84). -/
def Obligations.DecoderReadsWrittenOutWords : Prop :=
  decodeCommand 0b00000000#8 = .ok .nop ∧
  decodeCommand 0b00000001#8 = .ok .encode ∧
  decodeCommand 0b00000010#8 = .ok .decode ∧
  decodeCommand 0b00000011#8 = .error (.reservedCommand 0x03) ∧
  decodeCommand 0b00000101#8 = .error (.reservedCommand 0x05) ∧
  decodeCommand 0b10000001#8 = .error (.reservedCommand 0x81) ∧
  decodeTableWord 8 1 = some .encode

/-- R81, R82: decoding and encoding agree, both ways. -/
def Obligations.CommandByteRoundTrip : Prop :=
  (∀ i : Instr, decodeCommand (encodeCommand i) = .ok i) ∧
  (∀ (w : Byte) (i : Instr), decodeCommand w = .ok i → encodeCommand i = w)

/-- R80, R81: the decoder accepts exactly the bytes with `RSV` = 000000 and a defined `OP`. -/
def Obligations.DecoderAcceptsWellFormedBytes : Prop :=
  ∀ w : Byte, (∃ i, decodeCommand w = .ok i) ↔ rsvField w = 0 ∧ opField w ≠ 3

/-! ### Issuing a command (43_commands.md R170) -/

/-- How the model's step meets a command and the core. First clause (R170): it takes a
command from the host's write to `CTRL` and runs the meaning of the decoded command; that the
host's actions stand in `script` is the model's choice (log 3). Second clause, wholly the
model's choice (log 8): `withFetchWord` places a command as the host's next write to `CTRL`.
Third clause, the model's choice (log 3 for the empty script, log 7 for `IDLE` and `FINISHED`,
where R181 gives the core no step): with nothing from the host the step is `coreStep`. -/
def Obligations.StepRunsDecodedCommand : Prop :=
  (∀ (s : State) (rest : List HostAction) (w : Byte) (i : Instr),
    s.script = .write (.ctrl w) :: rest → decodeCommand w = .ok i →
      step s = exec i (s.setScript rest)) ∧
  (∀ (s : State) (w : Nat) (i : Instr), decodeTableWord 8 w = some i →
      step (s.withFetchWord 8 w) = exec i s) ∧
  (∀ s : State, s.script = [] → step s = .next s.coreStep)

/-- R170: busy, any register write is ignored and no state but the script changes; in
`IDLE` and `FINISHED` alike the decoded command, or the illegal command, happens. -/
def Obligations.CtrlWriteIssue : Prop :=
  ∀ (s : State) (rest : List HostAction),
    (∀ w : RegWrite, s.script = .write w :: rest →
      s.fsm = .encoding ∨ s.fsm = .accumulating → step s = .next { s with script := rest }) ∧
    (∀ w : Byte, s.script = .write (.ctrl w) :: rest → s.fsm = .idle ∨ s.fsm = .finished →
      (∀ i, decodeCommand w = .ok i → step s = exec i { s with script := rest }) ∧
      (decodeCommand w = .error (.reservedCommand w) →
        step s = .next ({ s with script := rest }.raise .illegalCommand)))

/-- R171: NOP completes in every state and changes nothing. -/
def Obligations.NopChangesNothing : Prop :=
  ∀ s : State, exec .nop s = .next s

/-- R172: ENCODE when the core is not busy: the start, or the capacity fault. -/
def Obligations.EncodeAcceptance : Prop :=
  ∀ s : State, s.busy = false →
    (8 * (s.plen + 1) ≤ s.clen → ∃ t, exec .encode s = .next t ∧
      t = { s with
        err := false, cause := 0, termFound := false,
        pidx := 0, pbit := 0, sr := 0x00, idx := 0, fsm := .encoding } ∧
      t.status = 0x01) ∧
    (s.clen < 8 * (s.plen + 1) → ∃ t, exec .encode s = .next t ∧
      t = { s with err := true, cause := 1, termFound := false, fsm := .finished } ∧
      t.status = 0x16)

/-- R10, R121, R131: the capacity check is exact at every width `w`: the longest payload of
that width never fits, and of two buffers one byte apart at the limit only the longer fits. -/
def Obligations.CapacityCheckNeverWraps : Prop :=
  ∀ (s : State), s.busy = false →
    (∀ w : Nat, s.plen = 2 ^ w - 1 → s.clen < 2 ^ w →
      ∃ t, exec .encode s = .next t ∧ t.status = 0x16 ∧ t.memC = s.memC) ∧
    (s.clen = 8 * (s.plen + 1) → ∃ t, exec .encode s = .next t ∧ t.fsm = .encoding) ∧
    (s.clen + 1 = 8 * (s.plen + 1) → ∃ t, exec .encode s = .next t ∧ t.status = 0x16)

/-- R176: DECODE is always accepted when the core is not busy. -/
def Obligations.DecodeAcceptance : Prop :=
  ∀ s : State, s.busy = false →
    ∃ t, exec .decode s = .next t ∧
      t = { s with
        err := false, cause := 0, termFound := false,
        idx := 0, acc := 0x00, bitpos := 0, olen := 0, fsm := .accumulating } ∧
      t.status = 0x01

/-- R179: a reserved byte written while the core is not busy, and while it is. -/
def Obligations.ReservedByteRaisesIllegalCommand : Prop :=
  ∀ (s : State) (rest : List HostAction) (w : Byte),
    s.script = .write (.ctrl w) :: rest → 3 ≤ w.toNat →
      (s.busy = false → ∃ t, step s = .next t ∧
        t = { s with
          script := rest, err := true, cause := 2, termFound := false, fsm := .finished } ∧
        t.status = 0x26) ∧
      (s.busy = true → step s = .next { s with script := rest })

/-- R206: the fault entry, of each fault. -/
def Obligations.FaultEntryEffect : Prop :=
  ∀ s : State,
    s.raise .capacityError =
      { s with err := true, cause := 1, termFound := false, fsm := .finished } ∧
    (s.raise .capacityError).status = 0x16 ∧
    s.raise .illegalCommand =
      { s with err := true, cause := 2, termFound := false, fsm := .finished } ∧
    (s.raise .illegalCommand).status = 0x26

/-- R200 to R202: after a command byte other than NOP's, given to a core that is not busy,
each cause stands exactly where the fault table raises it. -/
def Obligations.FaultsExactlyAsTheTable : Prop :=
  ∀ (s : State) (rest : List HostAction) (w : Byte),
    s.script = .write (.ctrl w) :: rest → s.busy = false → w ≠ 0x00 →
      ∃ t, step s = .next t ∧
        (t.cause = 1 ↔ w = 0x01 ∧ s.clen < 8 * (s.plen + 1)) ∧
        (t.cause = 2 ↔ 3 ≤ w.toNat) ∧
        (t.err = true ↔ t.cause ≠ 0) ∧
        (t.cause ≠ 0 → t.fsm = .finished ∧
          ∀ sp i, t.readMem sp i = s.readMem sp i)

/-- R209: a fault's flags stand until reset or the issue of a command byte other than
NOP's to a core that is not busy. -/
def Obligations.FaultFlagsPersist : Prop :=
  ∀ s t : State, step s = .next t → ¬ (t.err = s.err ∧ t.cause = s.cause) →
    ∃ (a : HostAction) (rest : List HostAction), s.script = a :: rest ∧
      ((a = .reset ∨ ∃ w, a = .resetWith w) ∨
        (s.busy = false ∧ ∃ w, w ≠ 0x00 ∧ a = .write (.ctrl w)))

/-- The frame of the three commands (R86, R63, R171, R172, R176): what a command byte
leaves alone at its issue. -/
def Obligations.CommandFrame : Prop :=
  ∀ (i : Instr) (s t : State), exec i s = .next t →
    (∀ sp j, t.readMem sp j = s.readMem sp j) ∧
    t.memP = s.memP ∧ t.memC = s.memC ∧ t.memO = s.memO ∧
    t.plen = s.plen ∧ t.clen = s.clen ∧ t.script = s.script ∧ t.seen = s.seen ∧
    (i ≠ .encode → t.pidx = s.pidx ∧ t.pbit = s.pbit ∧ t.sr = s.sr) ∧
    (i ≠ .decode → t.acc = s.acc ∧ t.bitpos = s.bitpos ∧ t.olen = s.olen) ∧
    (i = .nop → t = s) ∧
    (s.busy = true → t = s)

/-! ### The Bit Packer (40_bit_packer.md) -/

/-- R107: the packer step, for every value of its registers; and in a running ENCODE it is
never taken past the terminator, and ends just past it. -/
def Obligations.PackerStep : Prop :=
  (∀ (s : State) (cur : Byte),
    cur = (if s.pbit = 0 then
        (if s.pidx < s.plen then s.readMem .p s.pidx else 0x04)
      else s.sr) →
    s.packBit = bitOf cur 7 ∧
    s.packNext = { s with
      sr := cur <<< 1,
      pbit := if s.pbit = 7 then 0 else s.pbit + 1,
      pidx := if s.pbit = 7 then s.pidx + 1 else s.pidx }) ∧
  (∀ s : State, s.Inv → s.fsm = .encoding →
    (s.idx < 8 * (s.plen + 1) → s.pidx ≤ s.plen) ∧
    (s.idx = 8 * (s.plen + 1) → s.pidx = s.plen + 1 ∧ s.pbit = 0))

/-- R108: from `PACK_INIT` the `k`-th packer step returns bit `k` of `pack`, and the
packer's registers before it are as the rule says. -/
def Obligations.PackerStepsComputePack : Prop :=
  ∀ (s : State) (k : Nat), k < 8 * (s.plen + 1) →
    ∃ t : State, t = State.packNext^[k] s.packInit ∧
      (Codec.pack s.payload)[k]? = some t.packBit ∧
      t.pidx = k / 8 ∧ t.pbit.toNat = k % 8 ∧
      (k % 8 ≠ 0 → t.sr = s.frameByte (k / 8) <<< (k % 8) ∧
        bitOf t.sr 7 = bitOf (s.frameByte (k / 8)) (7 - k % 8))

/-- R103: the length of `pack`, a multiple of 8 and at least 8. -/
def Obligations.PackLength : Prop :=
  (∀ p : List Byte, (Codec.pack p).length = 8 * (p.length + 1)) ∧
  Codec.pack [] = [false, false, false, false, false, true, false, false]

/-- R105: the closed form of `pack`, bit by bit and byte by byte. -/
def Obligations.PackClosedForm : Prop :=
  ∀ p : List Byte,
    (∀ (j r : Nat) (h : j < p.length), r < 8 →
      (Codec.pack p)[8 * j + r]? = some (bitOf p[j] (7 - r))) ∧
    (∀ r : Nat, r < 8 → (Codec.pack p)[8 * p.length + r]? = some (decide (r = 5))) ∧
    (∀ (j : Nat) (h : j < p.length),
      Codec.byteOf (((Codec.pack p).drop (8 * j)).take 8) = p[j]) ∧
    Codec.byteOf (((Codec.pack p).drop (8 * p.length)).take 8) = 0x04

/-! ### The Channel Encoder (41_channel_encoder.md) -/

/-- R125 (with R130, any bit sequence): the closed form of `encode`, and its failure. -/
def Obligations.EncodeClosedForm : Prop :=
  ∀ (buf : List Byte) (bits : List Bool),
    (bits.length ≤ buf.length → ∃ d, Codec.encode buf bits = some d ∧ d.length = buf.length ∧
      (∀ (i : Nat) (b : Byte) (v : Bool), buf[i]? = some b → bits[i]? = some v →
        d[i]? = some ((b &&& 0xFE) ||| (if v then 0x01 else 0x00))) ∧
      (∀ i : Nat, bits.length ≤ i → d[i]? = buf[i]?)) ∧
    (buf.length < bits.length → Codec.encode buf bits = none)

/-- R128: each rewritten byte moves by at most 1, up, down or not at all. -/
def Obligations.PerturbationAtMostOne : Prop :=
  ∀ (c : Byte) (v : Bool),
    (bitOf c 0 = v → setLsb c v = c) ∧
    (bitOf c 0 = false → v = true → (setLsb c v).toNat = c.toNat + 1) ∧
    (bitOf c 0 = true → v = false → (setLsb c v).toNat + 1 = c.toNat)

/-- R129: encoding the same bits again changes nothing, and of two messages encoded one
over the other the second is the one decoded. -/
def Obligations.EncodingTwice : Prop :=
  (∀ (c d : List Byte) (bits : List Bool), Codec.encode c bits = some d →
    Codec.encode d bits = some d) ∧
  (∀ (c d e p q : List Byte), Codec.encode c (Codec.pack p) = some d →
    Codec.encode d (Codec.pack q) = some e → Config.terminator ∉ q → Codec.decode e = q)

/-- R126 with its frame: one encoder beat of the running machine. -/
def Obligations.EncoderBeat : Prop :=
  ∀ s : State, s.script = [] → s.fsm = .encoding → s.idx < 8 * (s.plen + 1) →
    ∃ t, step s = .next t ∧
      t.readMem .c s.idx =
        (if s.packBit then s.readMem .c s.idx ||| 0x01 else s.readMem .c s.idx &&& 0xFE) ∧
      (∀ sp i, ¬ (sp = .c ∧ i = s.idx) → t.readMem sp i = s.readMem sp i) ∧
      t.memP = s.memP ∧ t.memO = s.memO ∧
      t.idx = s.idx + 1 ∧
      t.pidx = s.packNext.pidx ∧ t.pbit = s.packNext.pbit ∧ t.sr = s.packNext.sr ∧
      t.fsm = .encoding ∧ t.acc = s.acc ∧ t.bitpos = s.bitpos ∧
      t.err = s.err ∧ t.termFound = s.termFound ∧ t.cause = s.cause ∧
      t.plen = s.plen ∧ t.clen = s.clen ∧ t.olen = s.olen ∧
      t.script = [] ∧ t.seen = s.seen ∧
      (s.Inv → s.idx < s.clen)

/-- R173: the core's step while an ENCODE runs. -/
def Obligations.EncodeRunStep : Prop :=
  ∀ s : State, s.script = [] → s.fsm = .encoding →
    (s.idx < 8 * (s.plen + 1) → step s = .next s.encBeat) ∧
    (8 * (s.plen + 1) ≤ s.idx → step s = .next { s with fsm := .finished })

/-! ### The Channel Decoder (42_channel_decoder.md) -/

/-- R144: the reconstructed byte of a group as the weighted sum of its LSBs. -/
def Obligations.GroupByteIsWeightedSum : Prop :=
  ∀ (c : List Byte) (g : Nat), 8 * (g + 1) ≤ c.length →
    (Codec.groupByte c g).toNat =
      ((List.range 8).map fun k =>
        ((c.getD (8 * g + k) 0x00) &&& 0x01).toNat * 2 ^ (7 - k)).sum

/-- R150: the closed form of `decode`: the bytes before the first group that spells the
terminator, whether there is one, and how many channel bytes are read. -/
def Obligations.DecodeClosedForm : Prop :=
  ∀ (c : List Byte) (m : Nat), m ≤ c.length / 8 →
    (∀ g, g < m → Codec.groupByte c g ≠ 0x04) →
    (m < c.length / 8 → Codec.groupByte c m = 0x04) →
      Codec.decode c = (List.range m).map (Codec.groupByte c) ∧
      ((Codec.decodeRun c).found = true ↔ m < c.length / 8) ∧
      (Codec.decodeRun c).read = (if m < c.length / 8 then 8 * (m + 1) else c.length)

/-- R142: only bit 0 of each channel byte has an effect. -/
def Obligations.DecodeUsesOnlyLsbs : Prop :=
  ∀ c d : List Byte, c.map (· &&& 0x01) = d.map (· &&& 0x01) →
    Codec.decodeRun c = Codec.decodeRun d

/-- R155: the bound on the output. -/
def Obligations.DecodeOutputBound : Prop :=
  ∀ c : List Byte,
    (Codec.decode c).length ≤ c.length / 8 ∧
    ((Codec.decodeRun c).found = true → (Codec.decode c).length + 1 ≤ c.length / 8)

/-- R158: the output never contains 0x04. -/
def Obligations.DecodeOutputFreeOfTerminator : Prop :=
  ∀ c : List Byte, (0x04 : Byte) ∉ Codec.decode c

/-- R157: the round trip. -/
def Obligations.CodecRoundTrip : Prop :=
  ∀ p c : List Byte, (0x04 : Byte) ∉ p → 8 * (p.length + 1) ≤ c.length →
    ∃ d, Codec.encode c (Codec.pack p) = some d ∧
      Codec.decode d = p ∧ (Codec.decodeRun d).found = true ∧
      (Codec.decodeRun d).read = 8 * (p.length + 1)

/-- R156: a payload that contains 0x04 is cut at its first occurrence. -/
def Obligations.EarlyTruncation : Prop :=
  ∀ (p c d : List Byte) (j : Nat), p[j]? = some 0x04 → (0x04 : Byte) ∉ p.take j →
    Codec.encode c (Codec.pack p) = some d →
      Codec.decode d = p.take j ∧ (Codec.decodeRun d).found = true

/-- R152 with its frame: one decoder beat of the running machine. -/
def Obligations.DecoderBeat : Prop :=
  ∀ (s : State) (acc' : Byte), s.script = [] → s.fsm = .accumulating → s.idx < s.clen →
    acc' = putBit s.acc (7 - s.bitpos.toNat) (bitOf (s.readMem .c s.idx) 0) →
    ∃ t, step s = .next t ∧ t.idx = s.idx + 1 ∧
      (s.bitpos ≠ 7 → t.acc = acc' ∧ t.bitpos = s.bitpos + 1 ∧ t.fsm = .accumulating ∧
        t.termFound = s.termFound ∧ t.olen = s.olen ∧ t.memO = s.memO) ∧
      (s.bitpos = 7 → acc' = 0x04 → t.acc = 0x00 ∧ t.bitpos = 0 ∧ t.fsm = .finished ∧
        t.termFound = true ∧ t.olen = s.olen ∧ t.memO = s.memO) ∧
      (s.bitpos = 7 → acc' ≠ 0x04 → t.acc = 0x00 ∧ t.bitpos = 0 ∧ t.fsm = .accumulating ∧
        t.termFound = s.termFound ∧ t.olen = s.olen + 1 ∧ t.readMem .o s.olen = acc' ∧
        ∀ i, i ≠ s.olen → t.readMem .o i = s.readMem .o i) ∧
      t.memP = s.memP ∧ t.memC = s.memC ∧
      t.pidx = s.pidx ∧ t.pbit = s.pbit ∧ t.sr = s.sr ∧
      t.err = s.err ∧ t.cause = s.cause ∧ t.plen = s.plen ∧ t.clen = s.clen ∧
      t.script = [] ∧ t.seen = s.seen

/-- R153: the step at `IDX` = `CLEN`, and the DECODE of an empty buffer. -/
def Obligations.DecoderExhaust : Prop :=
  (∀ s : State, s.script = [] → s.fsm = .accumulating → s.idx = s.clen →
    step s = .next { s with fsm := .finished }) ∧
  (∀ s : State, s.script = [] → s.busy = false → s.clen = 0 →
    ∃ t, exec .decode s = .next t ∧ step t = .next { t with fsm := .finished })

/-! ### Whole operations (43_commands.md) -/

/-- R174, R175: the whole ENCODE, in exactly `8 * (PLEN + 1) + 1` core steps, or its
capacity fault at once. -/
def Obligations.EncodeWholeOperation : Prop :=
  ∀ s : State, s.busy = false → s.script = [] →
    (8 * (s.plen + 1) ≤ s.clen → ∃ t u, exec .encode s = .next t ∧
      (∀ k, k ≤ 8 * (s.plen + 1) → ∃ v : State,
        Host.Core.run Sys2Proof.core k t = .next v ∧ v.fsm = .encoding) ∧
      Host.Core.run Sys2Proof.core (8 * (s.plen + 1) + 1) t = .next u ∧
      u.fsm = .finished ∧ u.status = 0x02 ∧
      Codec.encode s.channel (Codec.pack s.payload) = some u.channel ∧
      (∀ i, 8 * (s.plen + 1) ≤ i → u.readMem .c i = s.readMem .c i) ∧
      u.idx = 8 * (s.plen + 1) ∧ u.pidx = s.plen + 1 ∧ u.pbit = 0 ∧ u.sr = 0x00 ∧
      u.memP = s.memP ∧ u.memO = s.memO ∧ u.plen = s.plen ∧ u.clen = s.clen ∧
      u.olen = s.olen ∧ u.acc = s.acc ∧ u.bitpos = s.bitpos) ∧
    (s.clen < 8 * (s.plen + 1) → ∃ t, exec .encode s = .next t ∧
      t = { s with err := true, cause := 1, termFound := false, fsm := .finished } ∧
      t.status = 0x16)

/-- R178 (with R154, R177): the whole DECODE, in `8 * (m + 1)` core steps with the
terminator in group `m`, else in `CLEN + 1`. -/
def Obligations.DecodeWholeOperation : Prop :=
  ∀ s : State, s.busy = false → s.script = [] →
    ∃ (n : Nat) (t u : State), exec .decode s = .next t ∧
      (∀ k, k < n → ∃ v : State,
        Host.Core.run Sys2Proof.core k t = .next v ∧ v.fsm = .accumulating) ∧
      Host.Core.run Sys2Proof.core n t = .next u ∧ u.fsm = .finished ∧
      u.olen = (Codec.decode s.channel).length ∧ u.output = Codec.decode s.channel ∧
      u.termFound = (Codec.decodeRun s.channel).found ∧
      u.idx = (Codec.decodeRun s.channel).read ∧
      (u.termFound = true → u.status = 0x0A ∧ u.idx = 8 * (u.olen + 1) ∧
        n = 8 * (u.olen + 1) ∧ u.acc = 0x00 ∧ u.bitpos = 0) ∧
      (u.termFound = false → u.status = 0x02 ∧ u.idx = s.clen ∧ n = s.clen + 1 ∧
        u.bitpos.toNat = s.clen % 8 ∧
        ∀ k, k < 8 → bitOf u.acc (7 - k) =
          if k < s.clen % 8 then bitOf (s.readMem .c (8 * (s.clen / 8) + k)) 0 else false) ∧
      u.memC = s.memC ∧ u.memP = s.memP ∧ u.plen = s.plen ∧ u.clen = s.clen ∧
      u.pidx = s.pidx ∧ u.pbit = s.pbit ∧ u.sr = s.sr ∧
      (∀ i, u.olen ≤ i → u.readMem .o i = s.readMem .o i)

/-- R188: an ENCODE that fits, then a DECODE from any later state `w` whose `CLEN` and
space C are as the ENCODE left them. -/
def Obligations.EncodeThenDecode : Prop :=
  ∀ s : State, s.busy = false → s.script = [] → 8 * (s.plen + 1) ≤ s.clen →
    ∃ t u : State, exec .encode s = .next t ∧
      Host.Core.run Sys2Proof.core (8 * (s.plen + 1) + 1) t = .next u ∧
      ∀ w : State, w.busy = false → w.script = [] → w.clen = s.clen →
        (∀ i, i < s.clen → w.readMem .c i = u.readMem .c i) →
        ∃ (n : Nat) (v z : State), exec .decode w = .next v ∧
          Host.Core.run Sys2Proof.core n v = .next z ∧ z.status = 0x0A ∧
          ((0x04 : Byte) ∉ s.payload → z.olen = s.plen ∧ z.output = s.payload) ∧
          (∀ j, s.payload[j]? = some 0x04 → (0x04 : Byte) ∉ s.payload.take j →
            z.olen = j ∧ z.output = s.payload.take j)

/-- R149: the payload's length, the packer's registers, space P and what O held before have
no effect on a DECODE: from two states that agree on `CLEN` and on C there is a number of
steps after which both have ended, with the same results. It need not be the first such
number of either, since a step after the end leaves the state as it is (the model's choice,
log 7). -/
def Obligations.DecodeIgnoresPayloadAndOldOutput : Prop :=
  ∀ s z : State, s.busy = false → z.busy = false → s.script = [] → z.script = [] →
    s.clen = z.clen → (∀ i, i < s.clen → s.readMem .c i = z.readMem .c i) →
    ∃ (n : Nat) (t u t' u' : State),
      exec .decode s = .next t ∧ Host.Core.run Sys2Proof.core n t = .next u ∧
      exec .decode z = .next t' ∧ Host.Core.run Sys2Proof.core n t' = .next u' ∧
      u.fsm = .finished ∧ u'.fsm = .finished ∧ u.status = u'.status ∧
      u.olen = u'.olen ∧ u.output = u'.output ∧ u.idx = u'.idx ∧ u.acc = u'.acc ∧
      u.bitpos = u'.bitpos

/-- R184 (and R183, the end of the run): from every state of a running operation the core
ends it, within `CLEN + 1` steps. -/
def Obligations.EveryOperationEnds : Prop :=
  ∀ s : State, s.Inv → s.busy = true → s.script = [] →
    ∃ (n : Nat) (t : State), n ≤ s.clen + 1 ∧
      Host.Core.run Sys2Proof.core n s = .next t ∧ t.fsm = .finished ∧ t.ended = true

/-- R180: every change of `FSM`, with the event and the condition the table gives it. -/
def Obligations.ControlTransfers : Prop :=
  ∀ s t : State, s.Inv → step s = .next t → t.fsm ≠ s.fsm →
    (∃ (a : HostAction) (rest : List HostAction), s.script = a :: rest ∧
      (a = .reset ∨ ∃ w, a = .resetWith w) ∧ t.fsm = .idle) ∨
    ((s.fsm = .idle ∨ s.fsm = .finished) ∧
      ∃ (w : Byte) (rest : List HostAction), s.script = .write (.ctrl w) :: rest ∧
        ((w = 0x01 ∧ 8 * (s.plen + 1) ≤ s.clen ∧ t.fsm = .encoding) ∨
         (w = 0x01 ∧ s.clen < 8 * (s.plen + 1) ∧ t.fsm = .finished) ∨
         (w = 0x02 ∧ t.fsm = .accumulating) ∨
         (3 ≤ w.toNat ∧ t.fsm = .finished))) ∨
    (s.fsm = .encoding ∧ s.idx = 8 * (s.plen + 1) ∧ t.fsm = .finished ∧ t.idx = s.idx ∧
      t.memC = s.memC) ∨
    (s.fsm = .accumulating ∧ s.idx < s.clen ∧ s.bitpos = 7 ∧
      putBit s.acc 0 (bitOf (s.readMem .c s.idx) 0) = 0x04 ∧
      t.fsm = .finished ∧ t.termFound = true ∧ t.idx = s.idx + 1) ∨
    (s.fsm = .accumulating ∧ s.idx = s.clen ∧ t.fsm = .finished ∧
      t.termFound = s.termFound ∧ t.olen = s.olen ∧ t.acc = s.acc ∧ t.bitpos = s.bitpos)

/-- The frame of the core's step (R61, R63, R123, R124): it writes no register of the host,
no byte of P; in C only the byte at `IDX` of a running ENCODE, and there only bit 0; in O
only the byte at `OLEN` of a running DECODE. Its last clause, that with no operation a step
changes nothing, is the model's choice (log 7): R181 gives the core no step then. -/
def Obligations.CoreStepFrame : Prop :=
  ∀ s t : State, s.script = [] → step s = .next t →
    t.memP = s.memP ∧ t.plen = s.plen ∧ t.clen = s.clen ∧ t.err = s.err ∧ t.cause = s.cause ∧
    t.script = [] ∧ t.seen = s.seen ∧
    (∀ i, ¬ (s.fsm = .encoding ∧ i = s.idx) → t.readMem .c i = s.readMem .c i) ∧
    (∀ i k, 1 ≤ k → bitOf (t.readMem .c i) k = bitOf (s.readMem .c i) k) ∧
    (∀ i, ¬ (s.fsm = .accumulating ∧ i = s.olen) → t.readMem .o i = s.readMem .o i) ∧
    (s.fsm ≠ .accumulating → t.olen = s.olen ∧ t.acc = s.acc ∧ t.bitpos = s.bitpos ∧
      t.termFound = s.termFound) ∧
    (s.fsm ≠ .encoding → t.pidx = s.pidx ∧ t.pbit = s.pbit ∧ t.sr = s.sr) ∧
    (s.busy = false → t = s)

/-! ### Registers, status and memories as the host sees them (10_state.md, 20_memory.md) -/

/-- R32 to R34: the fields of `STATUS` and what `BUSY` and `FIN` are. -/
def Obligations.StatusLayout : Prop :=
  ∀ s : State,
    (bitOf s.status 0 = true ↔ s.fsm = .encoding ∨ s.fsm = .accumulating) ∧
    (bitOf s.status 1 = true ↔ s.fsm = .finished) ∧
    bitOf s.status 2 = s.err ∧ bitOf s.status 3 = s.termFound ∧
    s.status.extractLsb' 4 2 = s.cause ∧ s.status.extractLsb' 6 2 = 0

/-- R32: in every state that meets the invariant `STATUS` is one of six values. -/
def Obligations.StatusLegalValues : Prop :=
  ∀ s : State, s.Inv →
    s.status = 0x00 ∨ s.status = 0x01 ∨ s.status = 0x02 ∨ s.status = 0x0A ∨
    s.status = 0x16 ∨ s.status = 0x26

/-- R30, R31, R32, R40: the numbers of the registers, what a host read of each number notes,
at any time, and that it changes nothing else; and that writes to `STATUS`, `OLEN` and numbers
5 and above are ignored. -/
def Obligations.RegisterPort : Prop :=
  (∀ r : HostReg, HostReg.ofNumber r.number = r) ∧
  (∀ n : Nat, (HostReg.ofNumber n).number = n) ∧
  ∀ (s : State) (rest : List HostAction),
    (∀ n, s.script = .read (HostReg.ofNumber n) :: rest → step s = .next { s with
      script := rest,
      seen := s.seen ++ [.reg (HostReg.ofNumber n)
        (if n = 1 then s.status.toNat
         else if n = 2 then s.plen
         else if n = 3 then s.clen
         else if n = 4 then s.olen
         else 0)] }) ∧
    (∀ w, s.script = .write w :: rest →
      (∃ v, w = .status v) ∨ (∃ n, w = .olen n) ∨ (∃ k n, w = .absent k n) →
        step s = .next { s with script := rest })

/-- R38, R39, R41: the host's writes of the two length registers, not busy and busy. -/
def Obligations.LengthRegisterWrites : Prop :=
  ∀ (s : State) (rest : List HostAction) (n : Nat),
    (s.script = .write (.plen n) :: rest →
      (s.busy = false → step s = .next { s with script := rest, plen := n }) ∧
      (s.busy = true → step s = .next { s with script := rest })) ∧
    (s.script = .write (.clen n) :: rest →
      (s.busy = false → step s = .next { s with script := rest, clen := n }) ∧
      (s.busy = true → step s = .next { s with script := rest }))

/-- R54, R55: a memory write changes exactly the byte it names, in its own space, and no
register. -/
def Obligations.MemoryWriteThenRead : Prop :=
  ∀ (s : State) (sp sp' : Space) (i j : Nat) (v : Byte),
    (s.writeMem sp i v).readMem sp i = v ∧
    (sp' ≠ sp ∨ j ≠ i → (s.writeMem sp i v).readMem sp' j = s.readMem sp' j) ∧
    { s.writeMem sp i v with memP := s.memP, memC := s.memC, memO := s.memO } = s

/-- R41, R92: the host's loads and dumps of a core that is not busy. -/
def Obligations.HostMemoryAccess : Prop :=
  ∀ (s : State) (sp : Space) (a : Nat) (rest : List HostAction), s.busy = false →
    (∀ bs : List Byte, s.script = .load sp a bs :: rest → ∃ t, step s = .next t ∧
      (∀ (k : Nat) (b : Byte), bs[k]? = some b → t.readMem sp (a + k) = b) ∧
      (∀ sp' j, ¬ (sp' = sp ∧ a ≤ j ∧ j < a + bs.length) →
        t.readMem sp' j = s.readMem sp' j) ∧
      { t with memP := s.memP, memC := s.memC, memO := s.memO } = { s with script := rest }) ∧
    (∀ b : Nat, s.script = .dump sp a b :: rest → ∃ bs, bs.length = b - a ∧
      (∀ k, a + k < b → bs[k]? = some (s.readMem sp (a + k))) ∧
      step s = .next { s with script := rest, seen := s.seen ++ [.bytes sp a bs] })

/-- R41 and 93_implementation_defined.md U1: a host access to a space of a busy core is
refused by name. -/
def Obligations.BusyMemoryAccessRefused : Prop :=
  ∀ (s : State) (sp : Space) (a : Nat) (rest : List HostAction), s.busy = true →
    (∀ bs : List Byte, bs ≠ [] → s.script = .load sp a bs :: rest →
      step s = .refused (.hostMemoryWhileBusy sp)) ∧
    (∀ b : Nat, a < b → s.script = .dump sp a b :: rest →
      step s = .refused (.hostMemoryWhileBusy sp))

/-- R200, R55 and U1: a step always answers a next state, but for a host access to a space
of a busy core. -/
def Obligations.StepStopsOnlyOnBusyMemoryAccess : Prop :=
  ∀ s : State, (∃ t, step s = .next t) ∨
    (s.busy = true ∧ ∃ (sp : Space) (rest : List HostAction),
      step s = .refused (.hostMemoryWhileBusy sp) ∧
      ((∃ a bs, bs ≠ [] ∧ s.script = .load sp a bs :: rest) ∨
       (∃ a b, a < b ∧ s.script = .dump sp a b :: rest)))

/-- R181, R231, and log 7 (the model's choice): with no operation and nothing from the host
a step leaves the state as it is. -/
def Obligations.IdleCoreWaits : Prop :=
  ∀ s : State, s.busy = false → s.script = [] → step s = .next s

/-! ### Reset (70_reset_and_hazards.md) -/

/-- R43: the state after reset. -/
def Obligations.ResetValues : Prop :=
  State.reset.fsm = .idle ∧ State.reset.idx = 0 ∧ State.reset.pidx = 0 ∧
  State.reset.pbit = 0 ∧ State.reset.sr = 0x00 ∧ State.reset.acc = 0x00 ∧
  State.reset.bitpos = 0 ∧ State.reset.status = 0x00 ∧ State.reset.err = false ∧
  State.reset.termFound = false ∧ State.reset.cause = 0 ∧ State.reset.plen = 0 ∧
  State.reset.clen = 0 ∧ State.reset.olen = 0 ∧ State.reset.readReg .ctrl = 0 ∧
  ∀ sp i, State.reset.readMem sp i = Config.powerUpByte sp i

/-- R230, R232: reset at any time, in any state, also together with a host write. -/
def Obligations.ResetFromAnyState : Prop :=
  ∀ (s : State) (a : HostAction) (rest : List HostAction), s.script = a :: rest →
    (a = .reset ∨ ∃ w, a = .resetWith w) →
    ∃ t, step s = .next t ∧ t.fsm = .idle ∧ t.idx = 0 ∧ t.pidx = 0 ∧ t.pbit = 0 ∧
      t.bitpos = 0 ∧ t.sr = 0x00 ∧ t.acc = 0x00 ∧ t.status = 0x00 ∧ t.err = false ∧
      t.termFound = false ∧ t.cause = 0 ∧ t.plen = 0 ∧ t.clen = 0 ∧ t.olen = 0 ∧
      t.memP = s.memP ∧ t.memC = s.memC ∧ t.memO = s.memO ∧
      t.script = rest ∧ t.seen = s.seen ∧ t.readReg .ctrl = 0 ∧
      { t with
        memP := [], memC := [], memO := [], script := [], seen := [] } = State.reset

/-- R127, R233: an ENCODE cut short by reset after `m` core steps leaves the first `m`
channel bytes rewritten and the rest as they were. -/
def Obligations.ResetDuringEncode : Prop :=
  ∀ (s : State) (m : Nat), s.busy = false → s.script = [] →
    8 * (s.plen + 1) ≤ s.clen → m ≤ 8 * (s.plen + 1) →
    ∃ t v u : State, exec .encode s = .next t ∧
      Host.Core.run Sys2Proof.core m t = .next v ∧ v.fsm = .encoding ∧ v.idx = m ∧
      step { v with script := [.reset] } = .next u ∧ u.fsm = .idle ∧ u.status = 0x00 ∧
      (∀ (i : Nat) (b : Bool), i < m → (Codec.pack s.payload)[i]? = some b →
        u.readMem .c i = (s.readMem .c i &&& 0xFE) ||| (if b then 0x01 else 0x00)) ∧
      (∀ i, m ≤ i → u.readMem .c i = s.readMem .c i) ∧
      u.memP = s.memP ∧ u.memO = s.memO

/-- R233: a DECODE cut short by reset leaves in O the bytes appended so far, with `OLEN`
reset to 0. -/
def Obligations.ResetDuringDecode : Prop :=
  ∀ (s : State) (rest : List HostAction), s.Inv → s.fsm = .accumulating →
    s.script = .reset :: rest →
    ∃ t, step s = .next t ∧ t.olen = 0 ∧ t.fsm = .idle ∧
      t.readRange .o 0 (s.idx / 8) = (Codec.groupBytes s.channel).take (s.idx / 8) ∧
      t.memC = s.memC

/-- R234: a command given at once after reset. -/
def Obligations.CommandsRightAfterReset : Prop :=
  (∃ t, exec .encode State.reset = .next t ∧ t.status = 0x16) ∧
  (∃ t u : State, exec .decode State.reset = .next t ∧ step t = .next u ∧
    u.status = 0x02 ∧ u.olen = 0)

/-! ### Invariants every step keeps -/

/-- R44: reset meets the invariant. -/
def Obligations.ResetMeetsInvariant : Prop := State.reset.Inv

/-- R44: every step keeps the invariant, from every state that meets it. -/
def Obligations.StepKeepsInvariant : Prop :=
  ∀ s t : State, s.Inv → step s = .next t → t.Inv

/-- Every step keeps the canonical form of every space, from every state that has it. -/
def Obligations.StepKeepsMemoryCanonical : Prop :=
  ∀ s t : State, s.MemoryWf → step s = .next t → t.MemoryWf

/-- R7, R22: for every width `LENW`, if every length and index fits and the host writes only
lengths that fit, every step keeps them so; so the machine of any finite `LENW` is this one
with such a host. -/
def Obligations.StepKeepsLengthsInLenW : Prop :=
  ∀ (w : Config.LenW) (s t : State), s.Inv → s.FitsLenW w → step s = .next t → t.FitsLenW w
end

