-- ==== Sys2Proof/Laws/Bits.lean ====
section
/-! SUPPORT. What the bit operations do to each bit of a byte (spec 41_channel_encoder.md
R122, 42_channel_decoder.md R142 to R144): `setLsb`, `lsbOf`, `putBit`, `byteOf`. -/

namespace Sys2Proof.Machine

theorem byte_ext {a b : Byte} (h : ∀ k < 8, bitOf a k = bitOf b k) : a = b :=
  BitVec.eq_of_getLsbD_eq fun i hi => h i hi

theorem bitOf_of_ge (b : Byte) {k : Nat} (h : 8 ≤ k) : bitOf b k = false :=
  BitVec.getLsbD_of_ge b k h

theorem lsbOf_eq (b : Byte) : lsbOf b = bitOf b 0 := by
  simp [lsbOf, bitOf]

/-- The substituted bit is bit 0; the other seven keep their values (R122). -/
theorem bitOf_setLsb (c : Byte) (v : Bool) (k : Nat) :
    bitOf (setLsb c v) k = if k = 0 then v else bitOf c k := by
  by_cases h8 : k < 8
  · obtain ⟨n, hn⟩ : ∃ n : Fin 8, k = n.val := ⟨⟨k, h8⟩, rfl⟩
    subst hn
    cases v <;> fin_cases n <;> simp [setLsb, bitOf]
  · simp [bitOf_of_ge _ (Nat.not_lt.mp h8), show k ≠ 0 by omega]

@[simp] theorem lsbOf_setLsb (c : Byte) (v : Bool) : lsbOf (setLsb c v) = v := by
  simp [lsbOf_eq, bitOf_setLsb]

/-- The old LSB plays no part in the result (R122). -/
@[simp] theorem setLsb_setLsb (c : Byte) (v w : Bool) : setLsb (setLsb c v) w = setLsb c w :=
  byte_ext fun k _ => by by_cases h : k = 0 <;> simp [bitOf_setLsb, h]

theorem setLsb_lsbOf (c : Byte) : setLsb c (lsbOf c) = c :=
  byte_ext fun k _ => by by_cases h : k = 0 <;> simp [bitOf_setLsb, lsbOf_eq, h]

theorem bitOf_putBit (b : Byte) {k : Nat} (hk : k < 8) (v : Bool) (j : Nat) :
    bitOf (putBit b k v) j = if j = k then v else bitOf b j := by
  by_cases hj : j < 8
  · unfold putBit bitOf
    have h1 : ((0x01 : Byte) <<< k).getLsbD j = decide (j = k) := by
      simp only [BitVec.getLsbD_shiftLeft]
      by_cases h : j = k
      · subst h; simp [hj]
      · by_cases h' : j < k <;> simp [h, h', hj]; omega
    cases v
    · simp only [Bool.false_eq_true, if_false, BitVec.getLsbD_and, BitVec.getLsbD_not, h1]
      by_cases h : j = k <;> simp [h, hj, hk]
    · simp only [if_true, BitVec.getLsbD_or, h1]
      by_cases h : j = k <;> simp [h]
  · rw [bitOf_of_ge _ (Nat.not_lt.mp hj), bitOf_of_ge _ (Nat.not_lt.mp hj), if_neg (by omega)]

/-- `byte_of(q)`: bit `7 - k` of the byte is element `k` (00_scope.md R11). -/
theorem bitOf_byteOf_eight (b0 b1 b2 b3 b4 b5 b6 b7 : Bool) (k : Nat) (hk : k < 8) :
    bitOf (Codec.byteOf [b0, b1, b2, b3, b4, b5, b6, b7]) (7 - k) =
      [b0, b1, b2, b3, b4, b5, b6, b7][k] := by
  revert k
  revert b0 b1 b2 b3 b4 b5 b6 b7
  decide

theorem bitOf_byteOf {q : List Bool} (hq : q.length = 8) (k : Nat) (hk : k < 8) :
    bitOf (Codec.byteOf q) (7 - k) = q[k] := by
  match q, hq with
  | [b0, b1, b2, b3, b4, b5, b6, b7], _ => exact bitOf_byteOf_eight b0 b1 b2 b3 b4 b5 b6 b7 k hk

@[simp] theorem msb8_length (b : Byte) : (Codec.msb8 b).length = 8 := rfl

theorem msb8_getElem (b : Byte) (k : Nat) (h : k < (Codec.msb8 b).length) :
    (Codec.msb8 b)[k] = bitOf b (7 - k) := by
  obtain ⟨n, hn⟩ : ∃ n : Fin 8, k = n.val := ⟨⟨k, h⟩, rfl⟩
  subst hn
  fin_cases n <;> rfl

/-- `byte_of(msb8(b)) = b` (00_scope.md R11). -/
theorem byteOf_msb8 (b : Byte) : Codec.byteOf (Codec.msb8 b) = b :=
  byte_ext fun k hk => by
    have := bitOf_byteOf (msb8_length b) (7 - k) (by omega)
    rw [show 7 - (7 - k) = k by omega] at this
    rw [this, msb8_getElem, show 7 - (7 - k) = k by omega]

end Sys2Proof.Machine
end

