-- ==== Sys2Proof/Laws/Codec.lean ====
section
/-! SUPPORT. The small lemmas of the three pure functions: lengths and elements of `pack`
and of the loop of `encode`, the groups of a channel buffer, and one group of `decode`'s
loop at a time. -/

namespace Sys2Proof.Machine

/-! ### `pack` -/

theorem flatMap_msb8_length (p : List Byte) : (p.flatMap Codec.msb8).length = 8 * p.length := by
  induction p with
  | nil => rfl
  | cons b p ih => simp only [List.flatMap_cons, List.length_append, msb8_length, ih,
      List.length_cons]; omega

theorem flatMap_msb8_getElem (p : List Byte) (k : Nat) (h : k < (p.flatMap Codec.msb8).length) :
    (p.flatMap Codec.msb8)[k] =
      bitOf (p[k / 8]'(by rw [flatMap_msb8_length] at h; omega)) (7 - k % 8) := by
  induction p generalizing k with
  | nil => simp at h
  | cons b p ih =>
    simp only [List.flatMap_cons]
    by_cases hk : k < 8
    · rw [List.getElem_append_left (by simpa using hk), msb8_getElem]
      simp [Nat.div_eq_of_lt hk, Nat.mod_eq_of_lt hk]
    · obtain ⟨j, rfl⟩ : ∃ j, k = j + 8 := ⟨k - 8, by omega⟩
      rw [List.getElem_append_right (by simp)]
      simp only [msb8_length, Nat.add_sub_cancel]
      rw [ih]
      simp [Nat.add_div_right]

/-- Packing is the bits of the framed message (30_encoding.md R87). -/
theorem pack_eq_frame (p : List Byte) :
    Codec.pack p = (p ++ [Config.terminator]).flatMap Codec.msb8 := by
  simp [Codec.pack]

/-! ### `encode` -/

@[simp] theorem substitute_length (c : List Byte) (v : List Bool) :
    (Codec.substitute c v).length = c.length := by
  induction c generalizing v with
  | nil => cases v <;> rfl
  | cons b c ih => cases v <;> simp [Codec.substitute, ih]

theorem substitute_getElem (c : List Byte) (v : List Bool) (i : Nat)
    (h : i < (Codec.substitute c v).length) :
    (Codec.substitute c v)[i] =
      if h' : i < v.length then setLsb ((c)[i]'(by simpa using h)) v[i]
      else (c)[i]'(by simpa using h) := by
  induction c generalizing v i with
  | nil => simp at h
  | cons b c ih =>
    cases v with
    | nil => simp [Codec.substitute]
    | cons w v =>
      cases i with
      | zero => simp [Codec.substitute]
      | succ i =>
        simp only [Codec.substitute, List.getElem_cons_succ, ih, List.length_cons,
          Nat.add_lt_add_iff_right]

/-! ### Groups -/

theorem groupBytes_length (c : List Byte) : (Codec.groupBytes c).length = c.length / 8 := by
  simp [Codec.groupBytes]

theorem groupBytes_getElem (c : List Byte) (g : Nat) (h : g < (Codec.groupBytes c).length) :
    (Codec.groupBytes c)[g] = Codec.groupByte c g := by simp [Codec.groupBytes]

/-- Bit `7 - k` of group `g`'s byte is the LSB of channel byte `8g + k`
(42_channel_decoder.md R144). -/
theorem bitOf_groupByte (c : List Byte) (g k : Nat) (hk : k < 8) (hg : 8 * (g + 1) ≤ c.length) :
    bitOf (Codec.groupByte c g) (7 - k) = lsbOf ((c)[8 * g + k]'(by omega)) := by
  unfold Codec.groupByte
  rw [bitOf_byteOf (by simp; omega) k hk]
  simp

theorem groupBytes_of_short {c : List Byte} (h : c.length < 8) : Codec.groupBytes c = [] := by
  rw [← List.length_eq_zero_iff, groupBytes_length]; omega

theorem groupBytes_append (q c : List Byte) (hq : q.length = 8) :
    Codec.groupBytes (q ++ c) = Codec.byteOf (q.map lsbOf) :: Codec.groupBytes c := by
  unfold Codec.groupBytes
  have hl : (q ++ c).length / 8 = c.length / 8 + 1 := by simp only [List.length_append, hq]; omega
  rw [hl, List.range_succ_eq_map, List.map_cons, List.map_map]
  congr 1
  · simp [Codec.groupByte, hq]
  · refine List.map_congr_left fun g _ => ?_
    simp only [Function.comp, Codec.groupByte]
    rw [show 8 * (g + 1) = q.length + 8 * g by omega, List.drop_length_add_append]

/-! ### `decode` -/

/-- Eight placements into an empty accumulator make the byte of the eight bits. -/
theorem putBit_eight (b0 b1 b2 b3 b4 b5 b6 b7 : Bool) :
    putBit (putBit (putBit (putBit (putBit (putBit (putBit (putBit 0x00 7 b0) 6 b1) 5 b2) 4 b3)
      3 b4) 2 b5) 1 b6) 0 b7 = Codec.byteOf [b0, b1, b2, b3, b4, b5, b6, b7] := by
  revert b0 b1 b2 b3 b4 b5 b6 b7
  decide

/-- One whole group of `decode`'s loop (R140): it ends at the terminator, or appends. -/
theorem decodeLoop_group (q c out : List Byte) (n : Nat) (hq : q.length = 8) :
    Codec.decodeLoop (q ++ c) 0x00 0 out n =
      if Codec.byteOf (q.map lsbOf) = Config.terminator then
        { bytes := out, found := true, read := n + 8 }
      else Codec.decodeLoop c 0x00 0 (out ++ [Codec.byteOf (q.map lsbOf)]) (n + 8) := by
  match q, hq with
  | [b0, b1, b2, b3, b4, b5, b6, b7], _ =>
    simp only [List.map_cons, List.map_nil, ← putBit_eight]
    simp [Codec.decodeLoop]

/-- `decode`'s loop on less than a group: nothing completes (R148). -/
theorem decodeLoop_short (c out : List Byte) (n : Nat) (h : c.length < 8) :
    Codec.decodeLoop c 0x00 0 out n = { bytes := out, found := false, read := n + c.length } := by
  match c, h with
  | [], _ => rfl
  | [_], _ => simp [Codec.decodeLoop]
  | [_, _], _ => simp [Codec.decodeLoop]
  | [_, _, _], _ => simp [Codec.decodeLoop]
  | [_, _, _, _], _ => simp [Codec.decodeLoop]
  | [_, _, _, _, _], _ => simp [Codec.decodeLoop]
  | [_, _, _, _, _, _], _ => simp [Codec.decodeLoop]
  | [_, _, _, _, _, _, _], _ => simp [Codec.decodeLoop]

end Sys2Proof.Machine
end

