-- ==== Sys2Proof/Laws/State.lean ====
section
/-! SUPPORT. One lemma per field per update of the state, each true by `rfl`, so that no later
proof unfolds a record update; then the updates of a space, and what the views of the state
(a byte of a space, `BUSY`, the framed message) do under an update that leaves them alone. -/

namespace Sys2Proof.Machine.State

/-! ### setFsm -/

@[simp] theorem setFsm_fsm (s : State) (f : Fsm) : (s.setFsm f).fsm = f := by rfl
@[simp] theorem setFsm_idx (s : State) (f : Fsm) : (s.setFsm f).idx = s.idx := by rfl
@[simp] theorem setFsm_pidx (s : State) (f : Fsm) : (s.setFsm f).pidx = s.pidx := by rfl
@[simp] theorem setFsm_pbit (s : State) (f : Fsm) : (s.setFsm f).pbit = s.pbit := by rfl
@[simp] theorem setFsm_sr (s : State) (f : Fsm) : (s.setFsm f).sr = s.sr := by rfl
@[simp] theorem setFsm_acc (s : State) (f : Fsm) : (s.setFsm f).acc = s.acc := by rfl
@[simp] theorem setFsm_bitpos (s : State) (f : Fsm) : (s.setFsm f).bitpos = s.bitpos := by rfl
@[simp] theorem setFsm_err (s : State) (f : Fsm) : (s.setFsm f).err = s.err := by rfl
@[simp] theorem setFsm_termFound (s : State) (f : Fsm) : (s.setFsm f).termFound = s.termFound := by rfl
@[simp] theorem setFsm_cause (s : State) (f : Fsm) : (s.setFsm f).cause = s.cause := by rfl
@[simp] theorem setFsm_plen (s : State) (f : Fsm) : (s.setFsm f).plen = s.plen := by rfl
@[simp] theorem setFsm_clen (s : State) (f : Fsm) : (s.setFsm f).clen = s.clen := by rfl
@[simp] theorem setFsm_olen (s : State) (f : Fsm) : (s.setFsm f).olen = s.olen := by rfl
@[simp] theorem setFsm_memP (s : State) (f : Fsm) : (s.setFsm f).memP = s.memP := by rfl
@[simp] theorem setFsm_memC (s : State) (f : Fsm) : (s.setFsm f).memC = s.memC := by rfl
@[simp] theorem setFsm_memO (s : State) (f : Fsm) : (s.setFsm f).memO = s.memO := by rfl
@[simp] theorem setFsm_script (s : State) (f : Fsm) : (s.setFsm f).script = s.script := by rfl
@[simp] theorem setFsm_seen (s : State) (f : Fsm) : (s.setFsm f).seen = s.seen := by rfl
@[simp] theorem setFsm_space (s : State) (f : Fsm) (sp : Space) : (s.setFsm f).space sp = s.space sp := by
  cases sp <;> rfl
@[simp] theorem setFsm_readMem (s : State) (f : Fsm) (sp : Space) (i : Nat) :
    (s.setFsm f).readMem sp i = s.readMem sp i := by cases sp <;> rfl
@[simp] theorem setFsm_nbits (s : State) (f : Fsm) : (s.setFsm f).nbits = s.nbits := by rfl
@[simp] theorem setFsm_frameByte (s : State) (f : Fsm) (j : Nat) :
    (s.setFsm f).frameByte j = s.frameByte j := by rfl
@[simp] theorem setFsm_payload (s : State) (f : Fsm) : (s.setFsm f).payload = s.payload := by rfl
@[simp] theorem setFsm_channel (s : State) (f : Fsm) : (s.setFsm f).channel = s.channel := by rfl
@[simp] theorem setFsm_output (s : State) (f : Fsm) : (s.setFsm f).output = s.output := by rfl

/-! ### setIdx -/

@[simp] theorem setIdx_fsm (s : State) (n : Nat) : (s.setIdx n).fsm = s.fsm := by rfl
@[simp] theorem setIdx_idx (s : State) (n : Nat) : (s.setIdx n).idx = n := by rfl
@[simp] theorem setIdx_pidx (s : State) (n : Nat) : (s.setIdx n).pidx = s.pidx := by rfl
@[simp] theorem setIdx_pbit (s : State) (n : Nat) : (s.setIdx n).pbit = s.pbit := by rfl
@[simp] theorem setIdx_sr (s : State) (n : Nat) : (s.setIdx n).sr = s.sr := by rfl
@[simp] theorem setIdx_acc (s : State) (n : Nat) : (s.setIdx n).acc = s.acc := by rfl
@[simp] theorem setIdx_bitpos (s : State) (n : Nat) : (s.setIdx n).bitpos = s.bitpos := by rfl
@[simp] theorem setIdx_err (s : State) (n : Nat) : (s.setIdx n).err = s.err := by rfl
@[simp] theorem setIdx_termFound (s : State) (n : Nat) : (s.setIdx n).termFound = s.termFound := by rfl
@[simp] theorem setIdx_cause (s : State) (n : Nat) : (s.setIdx n).cause = s.cause := by rfl
@[simp] theorem setIdx_plen (s : State) (n : Nat) : (s.setIdx n).plen = s.plen := by rfl
@[simp] theorem setIdx_clen (s : State) (n : Nat) : (s.setIdx n).clen = s.clen := by rfl
@[simp] theorem setIdx_olen (s : State) (n : Nat) : (s.setIdx n).olen = s.olen := by rfl
@[simp] theorem setIdx_memP (s : State) (n : Nat) : (s.setIdx n).memP = s.memP := by rfl
@[simp] theorem setIdx_memC (s : State) (n : Nat) : (s.setIdx n).memC = s.memC := by rfl
@[simp] theorem setIdx_memO (s : State) (n : Nat) : (s.setIdx n).memO = s.memO := by rfl
@[simp] theorem setIdx_script (s : State) (n : Nat) : (s.setIdx n).script = s.script := by rfl
@[simp] theorem setIdx_seen (s : State) (n : Nat) : (s.setIdx n).seen = s.seen := by rfl
@[simp] theorem setIdx_space (s : State) (n : Nat) (sp : Space) : (s.setIdx n).space sp = s.space sp := by
  cases sp <;> rfl
@[simp] theorem setIdx_readMem (s : State) (n : Nat) (sp : Space) (i : Nat) :
    (s.setIdx n).readMem sp i = s.readMem sp i := by cases sp <;> rfl
@[simp] theorem setIdx_busy (s : State) (n : Nat) : (s.setIdx n).busy = s.busy := by rfl
@[simp] theorem setIdx_nbits (s : State) (n : Nat) : (s.setIdx n).nbits = s.nbits := by rfl
@[simp] theorem setIdx_frameByte (s : State) (n : Nat) (j : Nat) :
    (s.setIdx n).frameByte j = s.frameByte j := by rfl
@[simp] theorem setIdx_payload (s : State) (n : Nat) : (s.setIdx n).payload = s.payload := by rfl
@[simp] theorem setIdx_channel (s : State) (n : Nat) : (s.setIdx n).channel = s.channel := by rfl
@[simp] theorem setIdx_output (s : State) (n : Nat) : (s.setIdx n).output = s.output := by rfl

/-! ### setPacker -/

@[simp] theorem setPacker_fsm (s : State) (a : Nat) (b : BitVec 3) (r : Byte) : (s.setPacker a b r).fsm = s.fsm := by rfl
@[simp] theorem setPacker_idx (s : State) (a : Nat) (b : BitVec 3) (r : Byte) : (s.setPacker a b r).idx = s.idx := by rfl
@[simp] theorem setPacker_pidx (s : State) (a : Nat) (b : BitVec 3) (r : Byte) : (s.setPacker a b r).pidx = a := by rfl
@[simp] theorem setPacker_pbit (s : State) (a : Nat) (b : BitVec 3) (r : Byte) : (s.setPacker a b r).pbit = b := by rfl
@[simp] theorem setPacker_sr (s : State) (a : Nat) (b : BitVec 3) (r : Byte) : (s.setPacker a b r).sr = r := by rfl
@[simp] theorem setPacker_acc (s : State) (a : Nat) (b : BitVec 3) (r : Byte) : (s.setPacker a b r).acc = s.acc := by rfl
@[simp] theorem setPacker_bitpos (s : State) (a : Nat) (b : BitVec 3) (r : Byte) : (s.setPacker a b r).bitpos = s.bitpos := by rfl
@[simp] theorem setPacker_err (s : State) (a : Nat) (b : BitVec 3) (r : Byte) : (s.setPacker a b r).err = s.err := by rfl
@[simp] theorem setPacker_termFound (s : State) (a : Nat) (b : BitVec 3) (r : Byte) : (s.setPacker a b r).termFound = s.termFound := by rfl
@[simp] theorem setPacker_cause (s : State) (a : Nat) (b : BitVec 3) (r : Byte) : (s.setPacker a b r).cause = s.cause := by rfl
@[simp] theorem setPacker_plen (s : State) (a : Nat) (b : BitVec 3) (r : Byte) : (s.setPacker a b r).plen = s.plen := by rfl
@[simp] theorem setPacker_clen (s : State) (a : Nat) (b : BitVec 3) (r : Byte) : (s.setPacker a b r).clen = s.clen := by rfl
@[simp] theorem setPacker_olen (s : State) (a : Nat) (b : BitVec 3) (r : Byte) : (s.setPacker a b r).olen = s.olen := by rfl
@[simp] theorem setPacker_memP (s : State) (a : Nat) (b : BitVec 3) (r : Byte) : (s.setPacker a b r).memP = s.memP := by rfl
@[simp] theorem setPacker_memC (s : State) (a : Nat) (b : BitVec 3) (r : Byte) : (s.setPacker a b r).memC = s.memC := by rfl
@[simp] theorem setPacker_memO (s : State) (a : Nat) (b : BitVec 3) (r : Byte) : (s.setPacker a b r).memO = s.memO := by rfl
@[simp] theorem setPacker_script (s : State) (a : Nat) (b : BitVec 3) (r : Byte) : (s.setPacker a b r).script = s.script := by rfl
@[simp] theorem setPacker_seen (s : State) (a : Nat) (b : BitVec 3) (r : Byte) : (s.setPacker a b r).seen = s.seen := by rfl
@[simp] theorem setPacker_space (s : State) (a : Nat) (b : BitVec 3) (r : Byte) (sp : Space) : (s.setPacker a b r).space sp = s.space sp := by
  cases sp <;> rfl
@[simp] theorem setPacker_readMem (s : State) (a : Nat) (b : BitVec 3) (r : Byte) (sp : Space) (i : Nat) :
    (s.setPacker a b r).readMem sp i = s.readMem sp i := by cases sp <;> rfl
@[simp] theorem setPacker_busy (s : State) (a : Nat) (b : BitVec 3) (r : Byte) : (s.setPacker a b r).busy = s.busy := by rfl
@[simp] theorem setPacker_nbits (s : State) (a : Nat) (b : BitVec 3) (r : Byte) : (s.setPacker a b r).nbits = s.nbits := by rfl
@[simp] theorem setPacker_frameByte (s : State) (a : Nat) (b : BitVec 3) (r : Byte) (j : Nat) :
    (s.setPacker a b r).frameByte j = s.frameByte j := by rfl
@[simp] theorem setPacker_payload (s : State) (a : Nat) (b : BitVec 3) (r : Byte) : (s.setPacker a b r).payload = s.payload := by rfl
@[simp] theorem setPacker_channel (s : State) (a : Nat) (b : BitVec 3) (r : Byte) : (s.setPacker a b r).channel = s.channel := by rfl
@[simp] theorem setPacker_output (s : State) (a : Nat) (b : BitVec 3) (r : Byte) : (s.setPacker a b r).output = s.output := by rfl

/-! ### setAcc -/

@[simp] theorem setAcc_fsm (s : State) (a : Byte) (b : BitVec 3) : (s.setAcc a b).fsm = s.fsm := by rfl
@[simp] theorem setAcc_idx (s : State) (a : Byte) (b : BitVec 3) : (s.setAcc a b).idx = s.idx := by rfl
@[simp] theorem setAcc_pidx (s : State) (a : Byte) (b : BitVec 3) : (s.setAcc a b).pidx = s.pidx := by rfl
@[simp] theorem setAcc_pbit (s : State) (a : Byte) (b : BitVec 3) : (s.setAcc a b).pbit = s.pbit := by rfl
@[simp] theorem setAcc_sr (s : State) (a : Byte) (b : BitVec 3) : (s.setAcc a b).sr = s.sr := by rfl
@[simp] theorem setAcc_acc (s : State) (a : Byte) (b : BitVec 3) : (s.setAcc a b).acc = a := by rfl
@[simp] theorem setAcc_bitpos (s : State) (a : Byte) (b : BitVec 3) : (s.setAcc a b).bitpos = b := by rfl
@[simp] theorem setAcc_err (s : State) (a : Byte) (b : BitVec 3) : (s.setAcc a b).err = s.err := by rfl
@[simp] theorem setAcc_termFound (s : State) (a : Byte) (b : BitVec 3) : (s.setAcc a b).termFound = s.termFound := by rfl
@[simp] theorem setAcc_cause (s : State) (a : Byte) (b : BitVec 3) : (s.setAcc a b).cause = s.cause := by rfl
@[simp] theorem setAcc_plen (s : State) (a : Byte) (b : BitVec 3) : (s.setAcc a b).plen = s.plen := by rfl
@[simp] theorem setAcc_clen (s : State) (a : Byte) (b : BitVec 3) : (s.setAcc a b).clen = s.clen := by rfl
@[simp] theorem setAcc_olen (s : State) (a : Byte) (b : BitVec 3) : (s.setAcc a b).olen = s.olen := by rfl
@[simp] theorem setAcc_memP (s : State) (a : Byte) (b : BitVec 3) : (s.setAcc a b).memP = s.memP := by rfl
@[simp] theorem setAcc_memC (s : State) (a : Byte) (b : BitVec 3) : (s.setAcc a b).memC = s.memC := by rfl
@[simp] theorem setAcc_memO (s : State) (a : Byte) (b : BitVec 3) : (s.setAcc a b).memO = s.memO := by rfl
@[simp] theorem setAcc_script (s : State) (a : Byte) (b : BitVec 3) : (s.setAcc a b).script = s.script := by rfl
@[simp] theorem setAcc_seen (s : State) (a : Byte) (b : BitVec 3) : (s.setAcc a b).seen = s.seen := by rfl
@[simp] theorem setAcc_space (s : State) (a : Byte) (b : BitVec 3) (sp : Space) : (s.setAcc a b).space sp = s.space sp := by
  cases sp <;> rfl
@[simp] theorem setAcc_readMem (s : State) (a : Byte) (b : BitVec 3) (sp : Space) (i : Nat) :
    (s.setAcc a b).readMem sp i = s.readMem sp i := by cases sp <;> rfl
@[simp] theorem setAcc_busy (s : State) (a : Byte) (b : BitVec 3) : (s.setAcc a b).busy = s.busy := by rfl
@[simp] theorem setAcc_nbits (s : State) (a : Byte) (b : BitVec 3) : (s.setAcc a b).nbits = s.nbits := by rfl
@[simp] theorem setAcc_frameByte (s : State) (a : Byte) (b : BitVec 3) (j : Nat) :
    (s.setAcc a b).frameByte j = s.frameByte j := by rfl
@[simp] theorem setAcc_payload (s : State) (a : Byte) (b : BitVec 3) : (s.setAcc a b).payload = s.payload := by rfl
@[simp] theorem setAcc_channel (s : State) (a : Byte) (b : BitVec 3) : (s.setAcc a b).channel = s.channel := by rfl
@[simp] theorem setAcc_output (s : State) (a : Byte) (b : BitVec 3) : (s.setAcc a b).output = s.output := by rfl

/-! ### setFlags -/

@[simp] theorem setFlags_fsm (s : State) (e : Bool) (c : BitVec 2) (t : Bool) : (s.setFlags e c t).fsm = s.fsm := by rfl
@[simp] theorem setFlags_idx (s : State) (e : Bool) (c : BitVec 2) (t : Bool) : (s.setFlags e c t).idx = s.idx := by rfl
@[simp] theorem setFlags_pidx (s : State) (e : Bool) (c : BitVec 2) (t : Bool) : (s.setFlags e c t).pidx = s.pidx := by rfl
@[simp] theorem setFlags_pbit (s : State) (e : Bool) (c : BitVec 2) (t : Bool) : (s.setFlags e c t).pbit = s.pbit := by rfl
@[simp] theorem setFlags_sr (s : State) (e : Bool) (c : BitVec 2) (t : Bool) : (s.setFlags e c t).sr = s.sr := by rfl
@[simp] theorem setFlags_acc (s : State) (e : Bool) (c : BitVec 2) (t : Bool) : (s.setFlags e c t).acc = s.acc := by rfl
@[simp] theorem setFlags_bitpos (s : State) (e : Bool) (c : BitVec 2) (t : Bool) : (s.setFlags e c t).bitpos = s.bitpos := by rfl
@[simp] theorem setFlags_err (s : State) (e : Bool) (c : BitVec 2) (t : Bool) : (s.setFlags e c t).err = e := by rfl
@[simp] theorem setFlags_termFound (s : State) (e : Bool) (c : BitVec 2) (t : Bool) : (s.setFlags e c t).termFound = t := by rfl
@[simp] theorem setFlags_cause (s : State) (e : Bool) (c : BitVec 2) (t : Bool) : (s.setFlags e c t).cause = c := by rfl
@[simp] theorem setFlags_plen (s : State) (e : Bool) (c : BitVec 2) (t : Bool) : (s.setFlags e c t).plen = s.plen := by rfl
@[simp] theorem setFlags_clen (s : State) (e : Bool) (c : BitVec 2) (t : Bool) : (s.setFlags e c t).clen = s.clen := by rfl
@[simp] theorem setFlags_olen (s : State) (e : Bool) (c : BitVec 2) (t : Bool) : (s.setFlags e c t).olen = s.olen := by rfl
@[simp] theorem setFlags_memP (s : State) (e : Bool) (c : BitVec 2) (t : Bool) : (s.setFlags e c t).memP = s.memP := by rfl
@[simp] theorem setFlags_memC (s : State) (e : Bool) (c : BitVec 2) (t : Bool) : (s.setFlags e c t).memC = s.memC := by rfl
@[simp] theorem setFlags_memO (s : State) (e : Bool) (c : BitVec 2) (t : Bool) : (s.setFlags e c t).memO = s.memO := by rfl
@[simp] theorem setFlags_script (s : State) (e : Bool) (c : BitVec 2) (t : Bool) : (s.setFlags e c t).script = s.script := by rfl
@[simp] theorem setFlags_seen (s : State) (e : Bool) (c : BitVec 2) (t : Bool) : (s.setFlags e c t).seen = s.seen := by rfl
@[simp] theorem setFlags_space (s : State) (e : Bool) (c : BitVec 2) (t : Bool) (sp : Space) : (s.setFlags e c t).space sp = s.space sp := by
  cases sp <;> rfl
@[simp] theorem setFlags_readMem (s : State) (e : Bool) (c : BitVec 2) (t : Bool) (sp : Space) (i : Nat) :
    (s.setFlags e c t).readMem sp i = s.readMem sp i := by cases sp <;> rfl
@[simp] theorem setFlags_busy (s : State) (e : Bool) (c : BitVec 2) (t : Bool) : (s.setFlags e c t).busy = s.busy := by rfl
@[simp] theorem setFlags_nbits (s : State) (e : Bool) (c : BitVec 2) (t : Bool) : (s.setFlags e c t).nbits = s.nbits := by rfl
@[simp] theorem setFlags_frameByte (s : State) (e : Bool) (c : BitVec 2) (t : Bool) (j : Nat) :
    (s.setFlags e c t).frameByte j = s.frameByte j := by rfl
@[simp] theorem setFlags_payload (s : State) (e : Bool) (c : BitVec 2) (t : Bool) : (s.setFlags e c t).payload = s.payload := by rfl
@[simp] theorem setFlags_channel (s : State) (e : Bool) (c : BitVec 2) (t : Bool) : (s.setFlags e c t).channel = s.channel := by rfl
@[simp] theorem setFlags_output (s : State) (e : Bool) (c : BitVec 2) (t : Bool) : (s.setFlags e c t).output = s.output := by rfl

/-! ### setPlen -/

@[simp] theorem setPlen_fsm (s : State) (n : Nat) : (s.setPlen n).fsm = s.fsm := by rfl
@[simp] theorem setPlen_idx (s : State) (n : Nat) : (s.setPlen n).idx = s.idx := by rfl
@[simp] theorem setPlen_pidx (s : State) (n : Nat) : (s.setPlen n).pidx = s.pidx := by rfl
@[simp] theorem setPlen_pbit (s : State) (n : Nat) : (s.setPlen n).pbit = s.pbit := by rfl
@[simp] theorem setPlen_sr (s : State) (n : Nat) : (s.setPlen n).sr = s.sr := by rfl
@[simp] theorem setPlen_acc (s : State) (n : Nat) : (s.setPlen n).acc = s.acc := by rfl
@[simp] theorem setPlen_bitpos (s : State) (n : Nat) : (s.setPlen n).bitpos = s.bitpos := by rfl
@[simp] theorem setPlen_err (s : State) (n : Nat) : (s.setPlen n).err = s.err := by rfl
@[simp] theorem setPlen_termFound (s : State) (n : Nat) : (s.setPlen n).termFound = s.termFound := by rfl
@[simp] theorem setPlen_cause (s : State) (n : Nat) : (s.setPlen n).cause = s.cause := by rfl
@[simp] theorem setPlen_plen (s : State) (n : Nat) : (s.setPlen n).plen = n := by rfl
@[simp] theorem setPlen_clen (s : State) (n : Nat) : (s.setPlen n).clen = s.clen := by rfl
@[simp] theorem setPlen_olen (s : State) (n : Nat) : (s.setPlen n).olen = s.olen := by rfl
@[simp] theorem setPlen_memP (s : State) (n : Nat) : (s.setPlen n).memP = s.memP := by rfl
@[simp] theorem setPlen_memC (s : State) (n : Nat) : (s.setPlen n).memC = s.memC := by rfl
@[simp] theorem setPlen_memO (s : State) (n : Nat) : (s.setPlen n).memO = s.memO := by rfl
@[simp] theorem setPlen_script (s : State) (n : Nat) : (s.setPlen n).script = s.script := by rfl
@[simp] theorem setPlen_seen (s : State) (n : Nat) : (s.setPlen n).seen = s.seen := by rfl
@[simp] theorem setPlen_space (s : State) (n : Nat) (sp : Space) : (s.setPlen n).space sp = s.space sp := by
  cases sp <;> rfl
@[simp] theorem setPlen_readMem (s : State) (n : Nat) (sp : Space) (i : Nat) :
    (s.setPlen n).readMem sp i = s.readMem sp i := by cases sp <;> rfl
@[simp] theorem setPlen_busy (s : State) (n : Nat) : (s.setPlen n).busy = s.busy := by rfl
@[simp] theorem setPlen_channel (s : State) (n : Nat) : (s.setPlen n).channel = s.channel := by rfl
@[simp] theorem setPlen_output (s : State) (n : Nat) : (s.setPlen n).output = s.output := by rfl

/-! ### setClen -/

@[simp] theorem setClen_fsm (s : State) (n : Nat) : (s.setClen n).fsm = s.fsm := by rfl
@[simp] theorem setClen_idx (s : State) (n : Nat) : (s.setClen n).idx = s.idx := by rfl
@[simp] theorem setClen_pidx (s : State) (n : Nat) : (s.setClen n).pidx = s.pidx := by rfl
@[simp] theorem setClen_pbit (s : State) (n : Nat) : (s.setClen n).pbit = s.pbit := by rfl
@[simp] theorem setClen_sr (s : State) (n : Nat) : (s.setClen n).sr = s.sr := by rfl
@[simp] theorem setClen_acc (s : State) (n : Nat) : (s.setClen n).acc = s.acc := by rfl
@[simp] theorem setClen_bitpos (s : State) (n : Nat) : (s.setClen n).bitpos = s.bitpos := by rfl
@[simp] theorem setClen_err (s : State) (n : Nat) : (s.setClen n).err = s.err := by rfl
@[simp] theorem setClen_termFound (s : State) (n : Nat) : (s.setClen n).termFound = s.termFound := by rfl
@[simp] theorem setClen_cause (s : State) (n : Nat) : (s.setClen n).cause = s.cause := by rfl
@[simp] theorem setClen_plen (s : State) (n : Nat) : (s.setClen n).plen = s.plen := by rfl
@[simp] theorem setClen_clen (s : State) (n : Nat) : (s.setClen n).clen = n := by rfl
@[simp] theorem setClen_olen (s : State) (n : Nat) : (s.setClen n).olen = s.olen := by rfl
@[simp] theorem setClen_memP (s : State) (n : Nat) : (s.setClen n).memP = s.memP := by rfl
@[simp] theorem setClen_memC (s : State) (n : Nat) : (s.setClen n).memC = s.memC := by rfl
@[simp] theorem setClen_memO (s : State) (n : Nat) : (s.setClen n).memO = s.memO := by rfl
@[simp] theorem setClen_script (s : State) (n : Nat) : (s.setClen n).script = s.script := by rfl
@[simp] theorem setClen_seen (s : State) (n : Nat) : (s.setClen n).seen = s.seen := by rfl
@[simp] theorem setClen_space (s : State) (n : Nat) (sp : Space) : (s.setClen n).space sp = s.space sp := by
  cases sp <;> rfl
@[simp] theorem setClen_readMem (s : State) (n : Nat) (sp : Space) (i : Nat) :
    (s.setClen n).readMem sp i = s.readMem sp i := by cases sp <;> rfl
@[simp] theorem setClen_busy (s : State) (n : Nat) : (s.setClen n).busy = s.busy := by rfl
@[simp] theorem setClen_nbits (s : State) (n : Nat) : (s.setClen n).nbits = s.nbits := by rfl
@[simp] theorem setClen_frameByte (s : State) (n : Nat) (j : Nat) :
    (s.setClen n).frameByte j = s.frameByte j := by rfl
@[simp] theorem setClen_payload (s : State) (n : Nat) : (s.setClen n).payload = s.payload := by rfl
@[simp] theorem setClen_output (s : State) (n : Nat) : (s.setClen n).output = s.output := by rfl

/-! ### setOlen -/

@[simp] theorem setOlen_fsm (s : State) (n : Nat) : (s.setOlen n).fsm = s.fsm := by rfl
@[simp] theorem setOlen_idx (s : State) (n : Nat) : (s.setOlen n).idx = s.idx := by rfl
@[simp] theorem setOlen_pidx (s : State) (n : Nat) : (s.setOlen n).pidx = s.pidx := by rfl
@[simp] theorem setOlen_pbit (s : State) (n : Nat) : (s.setOlen n).pbit = s.pbit := by rfl
@[simp] theorem setOlen_sr (s : State) (n : Nat) : (s.setOlen n).sr = s.sr := by rfl
@[simp] theorem setOlen_acc (s : State) (n : Nat) : (s.setOlen n).acc = s.acc := by rfl
@[simp] theorem setOlen_bitpos (s : State) (n : Nat) : (s.setOlen n).bitpos = s.bitpos := by rfl
@[simp] theorem setOlen_err (s : State) (n : Nat) : (s.setOlen n).err = s.err := by rfl
@[simp] theorem setOlen_termFound (s : State) (n : Nat) : (s.setOlen n).termFound = s.termFound := by rfl
@[simp] theorem setOlen_cause (s : State) (n : Nat) : (s.setOlen n).cause = s.cause := by rfl
@[simp] theorem setOlen_plen (s : State) (n : Nat) : (s.setOlen n).plen = s.plen := by rfl
@[simp] theorem setOlen_clen (s : State) (n : Nat) : (s.setOlen n).clen = s.clen := by rfl
@[simp] theorem setOlen_olen (s : State) (n : Nat) : (s.setOlen n).olen = n := by rfl
@[simp] theorem setOlen_memP (s : State) (n : Nat) : (s.setOlen n).memP = s.memP := by rfl
@[simp] theorem setOlen_memC (s : State) (n : Nat) : (s.setOlen n).memC = s.memC := by rfl
@[simp] theorem setOlen_memO (s : State) (n : Nat) : (s.setOlen n).memO = s.memO := by rfl
@[simp] theorem setOlen_script (s : State) (n : Nat) : (s.setOlen n).script = s.script := by rfl
@[simp] theorem setOlen_seen (s : State) (n : Nat) : (s.setOlen n).seen = s.seen := by rfl
@[simp] theorem setOlen_space (s : State) (n : Nat) (sp : Space) : (s.setOlen n).space sp = s.space sp := by
  cases sp <;> rfl
@[simp] theorem setOlen_readMem (s : State) (n : Nat) (sp : Space) (i : Nat) :
    (s.setOlen n).readMem sp i = s.readMem sp i := by cases sp <;> rfl
@[simp] theorem setOlen_busy (s : State) (n : Nat) : (s.setOlen n).busy = s.busy := by rfl
@[simp] theorem setOlen_nbits (s : State) (n : Nat) : (s.setOlen n).nbits = s.nbits := by rfl
@[simp] theorem setOlen_frameByte (s : State) (n : Nat) (j : Nat) :
    (s.setOlen n).frameByte j = s.frameByte j := by rfl
@[simp] theorem setOlen_payload (s : State) (n : Nat) : (s.setOlen n).payload = s.payload := by rfl
@[simp] theorem setOlen_channel (s : State) (n : Nat) : (s.setOlen n).channel = s.channel := by rfl

/-! ### setScript -/

@[simp] theorem setScript_fsm (s : State) (as : List HostAction) : (s.setScript as).fsm = s.fsm := by rfl
@[simp] theorem setScript_idx (s : State) (as : List HostAction) : (s.setScript as).idx = s.idx := by rfl
@[simp] theorem setScript_pidx (s : State) (as : List HostAction) : (s.setScript as).pidx = s.pidx := by rfl
@[simp] theorem setScript_pbit (s : State) (as : List HostAction) : (s.setScript as).pbit = s.pbit := by rfl
@[simp] theorem setScript_sr (s : State) (as : List HostAction) : (s.setScript as).sr = s.sr := by rfl
@[simp] theorem setScript_acc (s : State) (as : List HostAction) : (s.setScript as).acc = s.acc := by rfl
@[simp] theorem setScript_bitpos (s : State) (as : List HostAction) : (s.setScript as).bitpos = s.bitpos := by rfl
@[simp] theorem setScript_err (s : State) (as : List HostAction) : (s.setScript as).err = s.err := by rfl
@[simp] theorem setScript_termFound (s : State) (as : List HostAction) : (s.setScript as).termFound = s.termFound := by rfl
@[simp] theorem setScript_cause (s : State) (as : List HostAction) : (s.setScript as).cause = s.cause := by rfl
@[simp] theorem setScript_plen (s : State) (as : List HostAction) : (s.setScript as).plen = s.plen := by rfl
@[simp] theorem setScript_clen (s : State) (as : List HostAction) : (s.setScript as).clen = s.clen := by rfl
@[simp] theorem setScript_olen (s : State) (as : List HostAction) : (s.setScript as).olen = s.olen := by rfl
@[simp] theorem setScript_memP (s : State) (as : List HostAction) : (s.setScript as).memP = s.memP := by rfl
@[simp] theorem setScript_memC (s : State) (as : List HostAction) : (s.setScript as).memC = s.memC := by rfl
@[simp] theorem setScript_memO (s : State) (as : List HostAction) : (s.setScript as).memO = s.memO := by rfl
@[simp] theorem setScript_script (s : State) (as : List HostAction) : (s.setScript as).script = as := by rfl
@[simp] theorem setScript_seen (s : State) (as : List HostAction) : (s.setScript as).seen = s.seen := by rfl
@[simp] theorem setScript_space (s : State) (as : List HostAction) (sp : Space) : (s.setScript as).space sp = s.space sp := by
  cases sp <;> rfl
@[simp] theorem setScript_readMem (s : State) (as : List HostAction) (sp : Space) (i : Nat) :
    (s.setScript as).readMem sp i = s.readMem sp i := by cases sp <;> rfl
@[simp] theorem setScript_busy (s : State) (as : List HostAction) : (s.setScript as).busy = s.busy := by rfl
@[simp] theorem setScript_nbits (s : State) (as : List HostAction) : (s.setScript as).nbits = s.nbits := by rfl
@[simp] theorem setScript_frameByte (s : State) (as : List HostAction) (j : Nat) :
    (s.setScript as).frameByte j = s.frameByte j := by rfl
@[simp] theorem setScript_payload (s : State) (as : List HostAction) : (s.setScript as).payload = s.payload := by rfl
@[simp] theorem setScript_channel (s : State) (as : List HostAction) : (s.setScript as).channel = s.channel := by rfl
@[simp] theorem setScript_output (s : State) (as : List HostAction) : (s.setScript as).output = s.output := by rfl

/-! ### observe -/

@[simp] theorem observe_fsm (s : State) (x : Seen) : (s.observe x).fsm = s.fsm := by rfl
@[simp] theorem observe_idx (s : State) (x : Seen) : (s.observe x).idx = s.idx := by rfl
@[simp] theorem observe_pidx (s : State) (x : Seen) : (s.observe x).pidx = s.pidx := by rfl
@[simp] theorem observe_pbit (s : State) (x : Seen) : (s.observe x).pbit = s.pbit := by rfl
@[simp] theorem observe_sr (s : State) (x : Seen) : (s.observe x).sr = s.sr := by rfl
@[simp] theorem observe_acc (s : State) (x : Seen) : (s.observe x).acc = s.acc := by rfl
@[simp] theorem observe_bitpos (s : State) (x : Seen) : (s.observe x).bitpos = s.bitpos := by rfl
@[simp] theorem observe_err (s : State) (x : Seen) : (s.observe x).err = s.err := by rfl
@[simp] theorem observe_termFound (s : State) (x : Seen) : (s.observe x).termFound = s.termFound := by rfl
@[simp] theorem observe_cause (s : State) (x : Seen) : (s.observe x).cause = s.cause := by rfl
@[simp] theorem observe_plen (s : State) (x : Seen) : (s.observe x).plen = s.plen := by rfl
@[simp] theorem observe_clen (s : State) (x : Seen) : (s.observe x).clen = s.clen := by rfl
@[simp] theorem observe_olen (s : State) (x : Seen) : (s.observe x).olen = s.olen := by rfl
@[simp] theorem observe_memP (s : State) (x : Seen) : (s.observe x).memP = s.memP := by rfl
@[simp] theorem observe_memC (s : State) (x : Seen) : (s.observe x).memC = s.memC := by rfl
@[simp] theorem observe_memO (s : State) (x : Seen) : (s.observe x).memO = s.memO := by rfl
@[simp] theorem observe_script (s : State) (x : Seen) : (s.observe x).script = s.script := by rfl
@[simp] theorem observe_seen (s : State) (x : Seen) : (s.observe x).seen = s.seen ++ [x] := by rfl
@[simp] theorem observe_space (s : State) (x : Seen) (sp : Space) : (s.observe x).space sp = s.space sp := by
  cases sp <;> rfl
@[simp] theorem observe_readMem (s : State) (x : Seen) (sp : Space) (i : Nat) :
    (s.observe x).readMem sp i = s.readMem sp i := by cases sp <;> rfl
@[simp] theorem observe_busy (s : State) (x : Seen) : (s.observe x).busy = s.busy := by rfl
@[simp] theorem observe_nbits (s : State) (x : Seen) : (s.observe x).nbits = s.nbits := by rfl
@[simp] theorem observe_frameByte (s : State) (x : Seen) (j : Nat) :
    (s.observe x).frameByte j = s.frameByte j := by rfl
@[simp] theorem observe_payload (s : State) (x : Seen) : (s.observe x).payload = s.payload := by rfl
@[simp] theorem observe_channel (s : State) (x : Seen) : (s.observe x).channel = s.channel := by rfl
@[simp] theorem observe_output (s : State) (x : Seen) : (s.observe x).output = s.output := by rfl

/-! ### setSpace -/

@[simp] theorem setSpace_fsm (s : State) (sp : Space) (m : Memory) : (s.setSpace sp m).fsm = s.fsm := by
  cases sp <;> rfl
@[simp] theorem setSpace_idx (s : State) (sp : Space) (m : Memory) : (s.setSpace sp m).idx = s.idx := by
  cases sp <;> rfl
@[simp] theorem setSpace_pidx (s : State) (sp : Space) (m : Memory) : (s.setSpace sp m).pidx = s.pidx := by
  cases sp <;> rfl
@[simp] theorem setSpace_pbit (s : State) (sp : Space) (m : Memory) : (s.setSpace sp m).pbit = s.pbit := by
  cases sp <;> rfl
@[simp] theorem setSpace_sr (s : State) (sp : Space) (m : Memory) : (s.setSpace sp m).sr = s.sr := by
  cases sp <;> rfl
@[simp] theorem setSpace_acc (s : State) (sp : Space) (m : Memory) : (s.setSpace sp m).acc = s.acc := by
  cases sp <;> rfl
@[simp] theorem setSpace_bitpos (s : State) (sp : Space) (m : Memory) : (s.setSpace sp m).bitpos = s.bitpos := by
  cases sp <;> rfl
@[simp] theorem setSpace_err (s : State) (sp : Space) (m : Memory) : (s.setSpace sp m).err = s.err := by
  cases sp <;> rfl
@[simp] theorem setSpace_termFound (s : State) (sp : Space) (m : Memory) : (s.setSpace sp m).termFound = s.termFound := by
  cases sp <;> rfl
@[simp] theorem setSpace_cause (s : State) (sp : Space) (m : Memory) : (s.setSpace sp m).cause = s.cause := by
  cases sp <;> rfl
@[simp] theorem setSpace_plen (s : State) (sp : Space) (m : Memory) : (s.setSpace sp m).plen = s.plen := by
  cases sp <;> rfl
@[simp] theorem setSpace_clen (s : State) (sp : Space) (m : Memory) : (s.setSpace sp m).clen = s.clen := by
  cases sp <;> rfl
@[simp] theorem setSpace_olen (s : State) (sp : Space) (m : Memory) : (s.setSpace sp m).olen = s.olen := by
  cases sp <;> rfl
@[simp] theorem setSpace_script (s : State) (sp : Space) (m : Memory) : (s.setSpace sp m).script = s.script := by
  cases sp <;> rfl
@[simp] theorem setSpace_seen (s : State) (sp : Space) (m : Memory) : (s.setSpace sp m).seen = s.seen := by
  cases sp <;> rfl
@[simp] theorem setSpace_busy (s : State) (sp : Space) (m : Memory) : (s.setSpace sp m).busy = s.busy := by
  cases sp <;> rfl
@[simp] theorem setSpace_nbits (s : State) (sp : Space) (m : Memory) : (s.setSpace sp m).nbits = s.nbits := by
  cases sp <;> rfl

/-! ### writeMem -/

@[simp] theorem writeMem_fsm (s : State) (sp : Space) (i : Nat) (v : Byte) : (s.writeMem sp i v).fsm = s.fsm := by
  cases sp <;> rfl
@[simp] theorem writeMem_idx (s : State) (sp : Space) (i : Nat) (v : Byte) : (s.writeMem sp i v).idx = s.idx := by
  cases sp <;> rfl
@[simp] theorem writeMem_pidx (s : State) (sp : Space) (i : Nat) (v : Byte) : (s.writeMem sp i v).pidx = s.pidx := by
  cases sp <;> rfl
@[simp] theorem writeMem_pbit (s : State) (sp : Space) (i : Nat) (v : Byte) : (s.writeMem sp i v).pbit = s.pbit := by
  cases sp <;> rfl
@[simp] theorem writeMem_sr (s : State) (sp : Space) (i : Nat) (v : Byte) : (s.writeMem sp i v).sr = s.sr := by
  cases sp <;> rfl
@[simp] theorem writeMem_acc (s : State) (sp : Space) (i : Nat) (v : Byte) : (s.writeMem sp i v).acc = s.acc := by
  cases sp <;> rfl
@[simp] theorem writeMem_bitpos (s : State) (sp : Space) (i : Nat) (v : Byte) : (s.writeMem sp i v).bitpos = s.bitpos := by
  cases sp <;> rfl
@[simp] theorem writeMem_err (s : State) (sp : Space) (i : Nat) (v : Byte) : (s.writeMem sp i v).err = s.err := by
  cases sp <;> rfl
@[simp] theorem writeMem_termFound (s : State) (sp : Space) (i : Nat) (v : Byte) : (s.writeMem sp i v).termFound = s.termFound := by
  cases sp <;> rfl
@[simp] theorem writeMem_cause (s : State) (sp : Space) (i : Nat) (v : Byte) : (s.writeMem sp i v).cause = s.cause := by
  cases sp <;> rfl
@[simp] theorem writeMem_plen (s : State) (sp : Space) (i : Nat) (v : Byte) : (s.writeMem sp i v).plen = s.plen := by
  cases sp <;> rfl
@[simp] theorem writeMem_clen (s : State) (sp : Space) (i : Nat) (v : Byte) : (s.writeMem sp i v).clen = s.clen := by
  cases sp <;> rfl
@[simp] theorem writeMem_olen (s : State) (sp : Space) (i : Nat) (v : Byte) : (s.writeMem sp i v).olen = s.olen := by
  cases sp <;> rfl
@[simp] theorem writeMem_script (s : State) (sp : Space) (i : Nat) (v : Byte) : (s.writeMem sp i v).script = s.script := by
  cases sp <;> rfl
@[simp] theorem writeMem_seen (s : State) (sp : Space) (i : Nat) (v : Byte) : (s.writeMem sp i v).seen = s.seen := by
  cases sp <;> rfl
@[simp] theorem writeMem_busy (s : State) (sp : Space) (i : Nat) (v : Byte) : (s.writeMem sp i v).busy = s.busy := by
  cases sp <;> rfl
@[simp] theorem writeMem_nbits (s : State) (sp : Space) (i : Nat) (v : Byte) : (s.writeMem sp i v).nbits = s.nbits := by
  cases sp <;> rfl

end Sys2Proof.Machine.State
end

