-- ==== Sys2Proof/Laws/Memory.lean ====
section
/-! SUPPORT. The laws of the memory operations (spec 20_memory.md R54, R55): a read after a
write, what a write leaves alone, the canonical form and that every memory operation keeps
it, and that in canonical form equal memories are equal data. -/

namespace Sys2Proof.Machine

/-! ### One space -/

theorem Memory.find_store (m : Memory) (i : Nat) (v : Byte) (j : Nat) :
    (m.store i v).find j = if j = i then some v else m.find j := by
  induction m with
  | nil => simp [Memory.store, Memory.find]
  | cons x m ih =>
    obtain ⟨k, u⟩ := x
    simp only [Memory.store]
    split
    · by_cases h : j = i <;> simp [Memory.find, h]
    · split
      · next h => subst h; by_cases h : j = i <;> simp [Memory.find, h]
      · simp only [Memory.find, ih]
        by_cases h : j = k <;> by_cases h' : j = i <;> simp_all

/-- The indices listed after a write are the written one and the ones listed before. -/
theorem Memory.mem_store {m : Memory} {i : Nat} {v : Byte} {x : Host.Cell}
    (h : x ∈ m.store i v) : x.1 = i ∨ x ∈ m := by
  induction m with
  | nil => simp_all [Memory.store]
  | cons y m ih =>
    obtain ⟨k, u⟩ := y
    simp only [Memory.store] at h
    split at h
    · simp only [List.mem_cons] at h ⊢; rcases h with h | h | h <;> simp_all
    · split at h
      · simp only [List.mem_cons] at h ⊢; rcases h with h | h <;> simp_all
      · simp only [List.mem_cons] at h ⊢
        rcases h with h | h
        · exact .inr (.inl h)
        · exact (ih h).imp_right .inr

/-- A write keeps the canonical form. -/
theorem Memory.store_wf {m : Memory} (h : m.wf) (i : Nat) (v : Byte) : (m.store i v).wf := by
  induction m with
  | nil => simp [Memory.store, Memory.wf]
  | cons y m ih =>
    obtain ⟨k, u⟩ := y
    obtain ⟨hk, hm⟩ := List.pairwise_cons.mp h
    simp only [Memory.store]
    split
    · next hlt =>
      refine List.pairwise_cons.mpr ⟨fun x hx => ?_, h⟩
      rcases List.mem_cons.mp hx with rfl | hx
      · exact hlt
      · exact Nat.lt_trans hlt (hk x hx)
    · split
      · next heq => subst heq; exact List.pairwise_cons.mpr ⟨hk, hm⟩
      · next hge hne =>
        refine List.pairwise_cons.mpr ⟨fun x hx => ?_, ih hm⟩
        rcases Memory.mem_store hx with hx | hx
        · simp only [hx]; omega
        · exact hk x hx

/-- An index below every listed one has no byte. -/
theorem Memory.find_of_lt {m : Memory} {j : Nat} (h : ∀ x ∈ m, j < x.1) : m.find j = none := by
  induction m with
  | nil => rfl
  | cons y m ih =>
    obtain ⟨k, u⟩ := y
    have hk := h (k, u) (by simp)
    rw [Memory.find, if_neg (by simp only at hk; omega)]
    exact ih fun x hx => h x (by simp [hx])

/-- In canonical form, memories that hold the same byte at every index are the same data. -/
theorem Memory.ext_of_wf {m m' : Memory} (h : m.wf) (h' : m'.wf)
    (hf : ∀ i, m.find i = m'.find i) : m = m' := by
  induction m generalizing m' with
  | nil =>
    cases m' with
    | nil => rfl
    | cons y m' => have := hf y.1; simp [Memory.find] at this
  | cons x m ih =>
    cases m' with
    | nil => have := hf x.1; simp [Memory.find] at this
    | cons y m' =>
      obtain ⟨a, u⟩ := x
      obtain ⟨b, v⟩ := y
      obtain ⟨hx, hm⟩ := List.pairwise_cons.mp h
      obtain ⟨hy, hm'⟩ := List.pairwise_cons.mp h'
      have hab : a = b := by
        rcases Nat.lt_trichotomy a b with hlt | heq | hgt
        · have := hf a
          rw [Memory.find_of_lt (m := (b, v) :: m') (by
            intro z hz
            rcases List.mem_cons.mp hz with rfl | hz
            · exact hlt
            · exact Nat.lt_trans hlt (hy z hz))] at this
          simp [Memory.find] at this
        · exact heq
        · have := hf b
          rw [Memory.find_of_lt (m := (a, u) :: m) (by
            intro z hz
            rcases List.mem_cons.mp hz with rfl | hz
            · exact hgt
            · exact Nat.lt_trans hgt (hx z hz))] at this
          simp [Memory.find] at this
      subst hab
      have huv : u = v := by have := hf a; simpa [Memory.find] using this
      subst huv
      congr 1
      refine ih hm hm' fun i => ?_
      by_cases hi : i = a
      · subst hi; rw [Memory.find_of_lt hx, Memory.find_of_lt hy]
      · have := hf i; simpa [Memory.find, hi] using this

/-! ### The three spaces -/

namespace State

@[simp] theorem setSpace_space (s : State) (sp : Space) (m : Memory) (sp' : Space) :
    (s.setSpace sp m).space sp' = if sp' = sp then m else s.space sp' := by
  cases sp <;> cases sp' <;> rfl

/-- A read after a write: the written byte at its space and index, the earlier byte
everywhere else (R54, R55). -/
theorem writeMem_readMem (s : State) (sp : Space) (i : Nat) (v : Byte) (sp' : Space) (j : Nat) :
    (s.writeMem sp i v).readMem sp' j = if sp' = sp ∧ j = i then v else s.readMem sp' j := by
  unfold writeMem readMem
  by_cases h : sp' = sp
  · subst h; by_cases h' : j = i <;> simp [Memory.find_store, h']
  · simp [h]

@[simp] theorem writeMem_readMem_same (s : State) (sp : Space) (i : Nat) (v : Byte) :
    (s.writeMem sp i v).readMem sp i = v := by simp [writeMem_readMem]

@[simp] theorem writeMem_memP_of_c (s : State) (i : Nat) (v : Byte) :
    (s.writeMem .c i v).memP = s.memP := by rfl
@[simp] theorem writeMem_memO_of_c (s : State) (i : Nat) (v : Byte) :
    (s.writeMem .c i v).memO = s.memO := by rfl
@[simp] theorem writeMem_memP_of_o (s : State) (i : Nat) (v : Byte) :
    (s.writeMem .o i v).memP = s.memP := by rfl
@[simp] theorem writeMem_memC_of_o (s : State) (i : Nat) (v : Byte) :
    (s.writeMem .o i v).memC = s.memC := by rfl
@[simp] theorem writeMem_frameByte_of_c (s : State) (i : Nat) (v : Byte) (j : Nat) :
    (s.writeMem .c i v).frameByte j = s.frameByte j := by
  simp [frameByte, writeMem_readMem]

/-- Every memory operation keeps the canonical form of every space. -/
theorem MemoryWf.writeMem {s : State} (h : s.MemoryWf) (sp : Space) (i : Nat) (v : Byte) :
    (s.writeMem sp i v).MemoryWf := by
  cases sp
  · exact ⟨Memory.store_wf h.p i v, h.c, h.o⟩
  · exact ⟨h.p, Memory.store_wf h.c i v, h.o⟩
  · exact ⟨h.p, h.c, Memory.store_wf h.o i v⟩

theorem MemoryWf.writeBytes {s : State} (h : s.MemoryWf) (sp : Space) (a : Nat)
    (bs : List Byte) : (s.writeBytes sp a bs).MemoryWf := by
  induction bs generalizing s a with
  | nil => exact h
  | cons b bs ih => exact ih (h.writeMem sp a b) (a + 1)

theorem MemoryWf.congr {s t : State} (h : s.MemoryWf) (hp : t.memP = s.memP)
    (hc : t.memC = s.memC) (ho : t.memO = s.memO) : t.MemoryWf :=
  ⟨hp ▸ h.p, hc ▸ h.c, ho ▸ h.o⟩

theorem reset_memoryWf : State.reset.MemoryWf := by
  constructor <;> simp [State.reset, Memory.wf]

/-- Where the written bytes land, and that nothing else changes (R55, R92). -/
theorem writeBytes_readMem (s : State) (sp : Space) (a : Nat) (bs : List Byte) (sp' : Space)
    (j : Nat) :
    (s.writeBytes sp a bs).readMem sp' j =
      if sp' = sp ∧ a ≤ j ∧ j < a + bs.length then bs.getD (j - a) 0 else s.readMem sp' j := by
  induction bs generalizing s a with
  | nil => rw [writeBytes, if_neg (by simp)]
  | cons b bs ih =>
    rw [writeBytes, ih, writeMem_readMem]
    by_cases hs : sp' = sp
    · by_cases hj : j = a
      · subst hj; simp [hs]
      · by_cases hr : a + 1 ≤ j ∧ j < a + 1 + bs.length
        · rw [if_pos ⟨hs, hr⟩, if_pos ⟨hs, by omega, by simp; omega⟩]
          obtain ⟨k, rfl⟩ : ∃ k, j = a + 1 + k := ⟨j - (a + 1), by omega⟩
          have h1 : a + 1 + k - a = k + 1 := by omega
          have h2 : a + 1 + k - (a + 1) = k := by omega
          rw [h1, h2, List.getD_cons_succ]
        · rw [if_neg (by simp [hs]; omega), if_neg (by simp [hj]),
            if_neg (by simp only [List.length_cons]; omega)]
    · simp [hs]

theorem writeBytes_fields (s : State) (sp : Space) (a : Nat) (bs : List Byte) :
    ∃ p c o, s.writeBytes sp a bs = { s with memP := p, memC := c, memO := o } := by
  induction bs generalizing s a with
  | nil => exact ⟨_, _, _, rfl⟩
  | cons b bs ih =>
    obtain ⟨p, c, o, h⟩ := ih (s.writeMem sp a b) (a + 1)
    refine ⟨p, c, o, ?_⟩
    rw [writeBytes, h]
    cases sp <;> rfl

/-! ### Ranges -/

@[simp] theorem readRange_length (s : State) (sp : Space) (a b : Nat) :
    (s.readRange sp a b).length = b - a := by simp [readRange]

theorem readRange_getElem (s : State) (sp : Space) (a b k : Nat)
    (h : k < (s.readRange sp a b).length) :
    (s.readRange sp a b)[k] = s.readMem sp (a + k) := by simp [readRange]

/-- A range is the same when every byte of it is. -/
theorem readRange_congr {s t : State} {sp : Space} {a b : Nat}
    (h : ∀ i, a ≤ i → i < b → t.readMem sp i = s.readMem sp i) :
    t.readRange sp a b = s.readRange sp a b := by
  unfold readRange
  refine List.map_congr_left fun i hi => ?_
  obtain ⟨h1, h2⟩ := List.mem_range'_1.mp hi
  exact h i h1 (by omega)

theorem readMem_congr {s t : State} {sp : Space} (h : t.space sp = s.space sp) (i : Nat) :
    t.readMem sp i = s.readMem sp i := by rw [readMem, readMem, h]

@[simp] theorem payload_length (s : State) : s.payload.length = s.plen := by simp [payload]
@[simp] theorem channel_length (s : State) : s.channel.length = s.clen := by simp [channel]
@[simp] theorem output_length (s : State) : s.output.length = s.olen := by simp [output]

theorem readRange_zero_succ (s : State) (sp : Space) (n : Nat) :
    s.readRange sp 0 (n + 1) = s.readRange sp 0 n ++ [s.readMem sp n] := by
  simp [readRange, List.range'_concat]

end State

end Sys2Proof.Machine
end

