-- ==== Sys2Proof/Laws/PerInstr.lean ====
section
/-! SUPPORT. The per-instruction family `CommandByte`: each command is well formed, and the
byte the encoder gives it passes both checks on the command byte's fields (spec
30_encoding.md R80, R81). -/

namespace Sys2Proof.Laws.CommandByte

/-- The command is well formed and its byte has `RSV` = 000000 and a defined `OP`. -/
def Statement (i : Instr) : Prop :=
  i.wellFormed = true ∧ rsvField (encodeCommand i) = 0 ∧ opField (encodeCommand i) ≠ 3

theorem nop : Statement .nop := ⟨by decide, by decide, by decide⟩

theorem encode : Statement .encode := ⟨by decide, by decide, by decide⟩

theorem decode : Statement .decode := ⟨by decide, by decide, by decide⟩

end Sys2Proof.Laws.CommandByte
end

