-- ==== Sys2Proof/Laws/Units.lean ====
section
/-! SUPPORT. What the unit operations do to each part of the state, once and for all (spec
40_bit_packer.md R106 to R108, 41_channel_encoder.md R126, 42_channel_decoder.md R151 to
R154), and that an encoder or decoder beat keeps the invariant of its running operation. -/

namespace Sys2Proof.Machine.State

/-! ### The packer -/

/-- The bit of the framed message at position `k`: bit `7 - k mod 8` of framed byte
`k div 8` (30_encoding.md R88). -/
def frameBit (s : State) (k : Nat) : Bool := bitOf (s.frameByte (k / 8)) (7 - k % 8)

theorem pbit_eq_zero_iff (s : State) : s.pbit = 0 ↔ s.pbit.toNat = 0 := by
  rw [← BitVec.toNat_inj]; rfl

theorem pbit_eq_seven_iff (b : BitVec 3) : b = 7 ↔ b.toNat = 7 := by
  rw [← BitVec.toNat_inj]; rfl

theorem counter_succ {b : BitVec 3} {n : Nat} (h : b.toNat = n % 8) :
    (if b = 7 then (0 : BitVec 3) else b + 1).toNat = (n + 1) % 8 := by
  by_cases h7 : b = 7
  · rw [if_pos h7]
    have := (pbit_eq_seven_iff b).mp h7
    simp; omega
  · rw [if_neg h7]
    have := mt (pbit_eq_seven_iff b).mpr h7
    have h1 : (1 : BitVec 3).toNat = 1 := by rfl
    rw [BitVec.toNat_add, h1]; omega

/-- The wire `cur` in the middle of an encode: the current byte moved left by the number of
bits already emitted (R108). -/
theorem EncodeInv.packCur {s : State} (h : s.EncodeInv) :
    s.packCur = s.frameByte s.pidx <<< (s.idx % 8) := by
  unfold State.packCur
  by_cases h0 : s.idx % 8 = 0
  · rw [if_pos ((pbit_eq_zero_iff s).mpr (h.pbit.trans h0)), h0, BitVec.shiftLeft_zero]
  · rw [if_neg (fun hp => h0 (h.pbit ▸ (pbit_eq_zero_iff s).mp hp)), h.sr, if_neg h0]

/-- The bit an encoder beat writes is the framed message's bit `IDX` (R108). -/
theorem EncodeInv.packBit {s : State} (h : s.EncodeInv) : s.packBit = s.frameBit s.idx := by
  rw [State.packBit, h.packCur, frameBit, h.pidx]
  have : s.idx % 8 < 8 := Nat.mod_lt _ (by decide)
  simp only [bitOf, BitVec.getLsbD_shiftLeft]
  simp [show ¬ 7 < s.idx % 8 by omega]

/-! ### The encoder beat -/

theorem encBeat_readMem (s : State) (sp : Space) (i : Nat) :
    s.encBeat.readMem sp i =
      if sp = .c ∧ i = s.idx then setLsb (s.readMem .c s.idx) s.packBit
      else s.readMem sp i := by
  simp [encBeat, packNext, writeMem_readMem]

@[simp] theorem encBeat_fsm (s : State) : s.encBeat.fsm = s.fsm := by simp [encBeat, packNext]
@[simp] theorem encBeat_idx (s : State) : s.encBeat.idx = s.idx + 1 := by simp [encBeat]
@[simp] theorem encBeat_pidx (s : State) :
    s.encBeat.pidx = if s.pbit = 7 then s.pidx + 1 else s.pidx := by simp [encBeat, packNext]
@[simp] theorem encBeat_pbit (s : State) :
    s.encBeat.pbit = if s.pbit = 7 then 0 else s.pbit + 1 := by simp [encBeat, packNext]
@[simp] theorem encBeat_sr (s : State) : s.encBeat.sr = s.packCur <<< 1 := by
  simp [encBeat, packNext]
@[simp] theorem encBeat_acc (s : State) : s.encBeat.acc = s.acc := by simp [encBeat, packNext]
@[simp] theorem encBeat_bitpos (s : State) : s.encBeat.bitpos = s.bitpos := by
  simp [encBeat, packNext]
@[simp] theorem encBeat_err (s : State) : s.encBeat.err = s.err := by simp [encBeat, packNext]
@[simp] theorem encBeat_termFound (s : State) : s.encBeat.termFound = s.termFound := by
  simp [encBeat, packNext]
@[simp] theorem encBeat_cause (s : State) : s.encBeat.cause = s.cause := by
  simp [encBeat, packNext]
@[simp] theorem encBeat_plen (s : State) : s.encBeat.plen = s.plen := by simp [encBeat, packNext]
@[simp] theorem encBeat_clen (s : State) : s.encBeat.clen = s.clen := by simp [encBeat, packNext]
@[simp] theorem encBeat_olen (s : State) : s.encBeat.olen = s.olen := by simp [encBeat, packNext]
@[simp] theorem encBeat_memP (s : State) : s.encBeat.memP = s.memP := by rfl
@[simp] theorem encBeat_memO (s : State) : s.encBeat.memO = s.memO := by rfl
@[simp] theorem encBeat_script (s : State) : s.encBeat.script = s.script := by
  simp [encBeat, packNext]
@[simp] theorem encBeat_seen (s : State) : s.encBeat.seen = s.seen := by simp [encBeat, packNext]
@[simp] theorem encBeat_nbits (s : State) : s.encBeat.nbits = s.nbits := by simp [nbits]
@[simp] theorem encBeat_frameByte (s : State) (j : Nat) :
    s.encBeat.frameByte j = s.frameByte j := by simp [frameByte, encBeat_readMem]

theorem MemoryWf.encBeat {s : State} (h : s.MemoryWf) : s.encBeat.MemoryWf :=
  (((h.congr (t := s.packNext) rfl rfl rfl).writeMem _ _ _).congr rfl rfl rfl)

/-- An encoder beat keeps the encode invariant (R108, R44 d). -/
theorem EncodeInv.encBeat {s : State} (h : s.EncodeInv) (hi : s.idx < s.nbits) :
    s.encBeat.EncodeInv where
  fits := by simpa using h.fits
  idx := by simpa using hi
  pidx := by
    have := h.pbit
    have := h.pidx
    rw [encBeat_pidx, encBeat_idx]
    split
    · next h7 => rw [pbit_eq_seven_iff] at h7; omega
    · next h7 => rw [pbit_eq_seven_iff] at h7; omega
  pbit := by rw [encBeat_pbit, encBeat_idx]; exact counter_succ h.pbit
  sr := by
    have hb := h.pbit
    have h8 : s.idx % 8 < 8 := Nat.mod_lt _ (by decide)
    rw [encBeat_sr, encBeat_idx, encBeat_frameByte, encBeat_pidx, h.packCur,
      ← BitVec.shiftLeft_add]
    by_cases h7 : s.pbit = 7
    · rw [pbit_eq_seven_iff] at h7
      rw [if_pos (by omega), show s.idx % 8 + 1 = 8 by omega]
      exact byte_ext fun k hk => by simp [bitOf, hk]
    · have h7' := mt (pbit_eq_seven_iff _).mpr h7
      rw [if_neg (by omega), if_neg h7, show (s.idx + 1) % 8 = s.idx % 8 + 1 by omega]

/-! ### The decoder beat -/

@[simp] theorem decBeat_memP (s : State) : s.decBeat.memP = s.memP := by
  unfold decBeat; split <;> (try split) <;> rfl
@[simp] theorem decBeat_memC (s : State) : s.decBeat.memC = s.memC := by
  unfold decBeat; split <;> (try split) <;> rfl
@[simp] theorem decBeat_idx (s : State) : s.decBeat.idx = s.idx + 1 := by
  unfold decBeat; split <;> (try split) <;> simp
@[simp] theorem decBeat_pidx (s : State) : s.decBeat.pidx = s.pidx := by
  unfold decBeat; split <;> (try split) <;> simp
@[simp] theorem decBeat_pbit (s : State) : s.decBeat.pbit = s.pbit := by
  unfold decBeat; split <;> (try split) <;> simp
@[simp] theorem decBeat_sr (s : State) : s.decBeat.sr = s.sr := by
  unfold decBeat; split <;> (try split) <;> simp
@[simp] theorem decBeat_acc (s : State) :
    s.decBeat.acc = if s.bitpos = 7 then 0x00 else s.decAcc := by
  unfold decBeat; split <;> (try split) <;> simp
@[simp] theorem decBeat_bitpos (s : State) :
    s.decBeat.bitpos = if s.bitpos = 7 then 0 else s.bitpos + 1 := by
  unfold decBeat; split <;> (try split) <;> simp
@[simp] theorem decBeat_err (s : State) : s.decBeat.err = s.err := by
  unfold decBeat; split <;> (try split) <;> simp
@[simp] theorem decBeat_cause (s : State) : s.decBeat.cause = s.cause := by
  unfold decBeat; split <;> (try split) <;> simp
@[simp] theorem decBeat_plen (s : State) : s.decBeat.plen = s.plen := by
  unfold decBeat; split <;> (try split) <;> simp
@[simp] theorem decBeat_clen (s : State) : s.decBeat.clen = s.clen := by
  unfold decBeat; split <;> (try split) <;> simp
@[simp] theorem decBeat_script (s : State) : s.decBeat.script = s.script := by
  unfold decBeat; split <;> (try split) <;> simp
@[simp] theorem decBeat_seen (s : State) : s.decBeat.seen = s.seen := by
  unfold decBeat; split <;> (try split) <;> simp

/-- The beat completes the terminator: the source's `DONE` (R145, R152). -/
def completesTerm (s : State) : Bool := s.bitpos == 7 && s.decAcc == Config.terminator

/-- The beat completes a byte that is appended (R146, R152). -/
def appends (s : State) : Bool := s.bitpos == 7 && s.decAcc != Config.terminator

theorem decBeat_fsm (s : State) :
    s.decBeat.fsm = if s.completesTerm then .finished else s.fsm := by
  unfold decBeat completesTerm; split <;> (try split) <;> simp_all
theorem decBeat_termFound (s : State) :
    s.decBeat.termFound = if s.completesTerm then true else s.termFound := by
  unfold decBeat completesTerm; split <;> (try split) <;> simp_all
theorem decBeat_olen (s : State) :
    s.decBeat.olen = if s.appends then s.olen + 1 else s.olen := by
  unfold decBeat appends; split <;> (try split) <;> simp_all
theorem decBeat_readMem (s : State) (sp : Space) (i : Nat) :
    s.decBeat.readMem sp i =
      if s.appends ∧ sp = .o ∧ i = s.olen then s.decAcc else s.readMem sp i := by
  unfold decBeat appends; split <;> (try split) <;> simp_all [writeMem_readMem]

@[simp] theorem decBeat_channel (s : State) : s.decBeat.channel = s.channel := by
  unfold channel
  rw [decBeat_clen]
  exact readRange_congr fun i _ _ => readMem_congr (by simp [space]) i

theorem MemoryWf.decBeat {s : State} (h : s.MemoryWf) : s.decBeat.MemoryWf := by
  unfold State.decBeat
  split
  · split
    · exact h.congr rfl rfl rfl
    · exact ((h.congr (t := (s.setIdx (s.idx + 1)).setAcc 0x00 0) rfl rfl rfl).writeMem
        _ _ _).congr rfl rfl rfl
  · exact h.congr rfl rfl rfl

theorem channel_getElem (s : State) (i : Nat) (h : i < s.channel.length) :
    s.channel[i] = s.readMem .c i := by simp [channel, readRange_getElem]

/-- The bits of the wire `acc'` (R143): those collected so far, then the new one. -/
theorem DecodeInv.bitOf_decAcc {s : State} (h : s.DecodeInv) (k : Nat) (hk : k < 8) :
    bitOf s.decAcc (7 - k) =
      if k < s.bitpos.toNat + 1 then lsbOf (s.readMem .c (8 * s.olen + k)) else false := by
  have hb := h.bitpos
  have ho := h.olen
  have h8 : s.bitpos.toNat < 8 := s.bitpos.isLt
  unfold decAcc
  rw [bitOf_putBit _ (by omega), h.acc k hk]
  by_cases hkb : k = s.bitpos.toNat
  · rw [if_pos (by omega), if_pos (by omega)]
    congr 2; omega
  · rw [if_neg (by omega)]
    by_cases hlt : k < s.bitpos.toNat
    · rw [if_pos hlt, if_pos (by omega)]
    · rw [if_neg hlt, if_neg (by omega)]

/-- On the eighth bit the wire `acc'` is the reconstructed byte of the group (R144). -/
theorem DecodeInv.decAcc_eq_groupByte {s : State} (h : s.DecodeInv) (hi : s.idx < s.clen)
    (h7 : s.bitpos = 7) : s.decAcc = Codec.groupByte s.channel s.olen := by
  have hb := h.bitpos
  have ho := h.olen
  rw [pbit_eq_seven_iff] at h7
  refine byte_ext fun k hk => ?_
  have h1 := h.bitOf_decAcc (7 - k) (by omega)
  have h2 := bitOf_groupByte s.channel s.olen (7 - k) (by omega) (by simp; omega)
  rw [show 7 - (7 - k) = k by omega] at h1 h2
  rw [h1, h2, if_pos (by omega), channel_getElem]

theorem appends_iff (s : State) : s.appends = true ↔ s.bitpos = 7 ∧ s.decAcc ≠ Config.terminator := by
  simp [appends]

theorem completesTerm_iff (s : State) :
    s.completesTerm = true ↔ s.bitpos = 7 ∧ s.decAcc = Config.terminator := by
  simp [completesTerm]

theorem decBeat_output (s : State) :
    s.decBeat.output = if s.appends then s.output ++ [s.decAcc] else s.output := by
  unfold output
  rw [decBeat_olen]
  by_cases ha : s.appends = true
  · rw [if_pos ha, if_pos ha, readRange_zero_succ]
    congr 1
    · refine readRange_congr fun i _ hi => ?_
      rw [decBeat_readMem, if_neg (by rintro ⟨_, _, rfl⟩; omega)]
    · rw [decBeat_readMem, if_pos ⟨ha, rfl, rfl⟩]
  · rw [if_neg ha, if_neg ha]
    refine readRange_congr fun i _ hi => ?_
    rw [decBeat_readMem, if_neg (fun h => ha h.1)]

/-- A decoder beat that does not complete the terminator keeps the decode invariant
(R154, R44 e). -/
theorem DecodeInv.decBeat {s : State} (h : s.DecodeInv) (hi : s.idx < s.clen)
    (hc : s.completesTerm = false) : s.decBeat.DecodeInv := by
  have hb := h.bitpos
  have ho := h.olen
  have happ : s.bitpos = 7 → s.appends = true := fun h7 => by
    rw [appends_iff]
    refine ⟨h7, fun ht => ?_⟩
    rw [(completesTerm_iff s).mpr ⟨h7, ht⟩] at hc
    cases hc
  have hread : ∀ i, s.decBeat.readMem .c i = s.readMem .c i := fun i => by
    rw [decBeat_readMem, if_neg (by simp)]
  refine ⟨by simpa using hi, ?_, ?_, ?_, ?_, ?_⟩
  · rw [decBeat_bitpos, decBeat_idx]; exact counter_succ hb
  · rw [decBeat_olen, decBeat_idx]
    by_cases h7 : s.bitpos = 7
    · rw [if_pos (happ h7)]; rw [pbit_eq_seven_iff] at h7; omega
    · rw [if_neg (fun ha => h7 ((appends_iff s).mp ha).1)]
      rw [pbit_eq_seven_iff] at h7; omega
  · intro k hk
    rw [hread, decBeat_acc, decBeat_bitpos, decBeat_olen]
    by_cases h7 : s.bitpos = 7
    · rw [if_pos h7, if_pos h7, if_pos (happ h7)]
      simp [bitOf]
    · rw [if_neg h7, if_neg h7, if_neg (fun ha => h7 ((appends_iff s).mp ha).1),
        h.bitOf_decAcc k hk]
      have := mt (pbit_eq_seven_iff _).mpr h7
      have h1 : (1 : BitVec 3).toNat = 1 := by rfl
      have h2 : (s.bitpos + 1).toNat = s.bitpos.toNat + 1 := by
        rw [BitVec.toNat_add, h1]; omega
      rw [h2]
  · rw [decBeat_output, decBeat_channel, decBeat_olen]
    by_cases ha : s.appends = true
    · have h7 := ((appends_iff s).mp ha).1
      have h7n := (pbit_eq_seven_iff _).mp h7
      rw [if_pos ha, if_pos ha, h.output, h.decAcc_eq_groupByte hi h7, List.take_add_one,
        List.getElem?_eq_getElem (by simp [groupBytes_length]; omega), groupBytes_getElem]
      rfl
    · rw [if_neg ha, if_neg ha, h.output]
  · rw [decBeat_output]
    by_cases ha : s.appends = true
    · rw [if_pos ha, List.mem_append, not_or]
      refine ⟨h.noTerm, ?_⟩
      simpa using Ne.symm ((appends_iff s).mp ha).2
    · rw [if_neg ha]; exact h.noTerm

/-- The acceptance of a DECODE establishes the decode invariant (R151). -/
theorem acceptDecode_decodeInv (s : State) : s.acceptDecode.DecodeInv where
  idx := by simp [acceptDecode, decInit]
  bitpos := by simp [acceptDecode, decInit]
  olen := by simp [acceptDecode, decInit]
  acc k hk := by simp [acceptDecode, decInit, bitOf]
  output := by simp [output, acceptDecode, decInit, readRange]
  noTerm := by simp [output, acceptDecode, decInit, readRange]

/-- The start of an ENCODE that fits establishes the encode invariant (R106). -/
theorem startEncode_encodeInv {s : State} (h : s.nbits ≤ s.clen) : s.startEncode.EncodeInv where
  fits := by simpa [startEncode, packInit, clearFlags] using h
  idx := by simp [startEncode]
  pidx := by simp [startEncode, packInit]
  pbit := by simp [startEncode, packInit]
  sr := by simp [startEncode, packInit]

end Sys2Proof.Machine.State
end

