-- ==== Sys2Proof/Laws/Step.lean ====
section
/-! SUPPORT. What a command, a core step and a step of the machine can do, said once: the
shape of every next state (`Move`), the lemma that every next state has it (`step_move`),
and runs of the core with nothing from the host (spec 43_commands.md R170, R181, R182). -/

namespace Sys2Proof.Machine

namespace State

theorem busy_iff (s : State) : s.busy = true ↔ s.fsm = .encoding ∨ s.fsm = .accumulating := by
  unfold busy; cases s.fsm <;> simp [Fsm.busy]

theorem not_busy_iff (s : State) : s.busy = false ↔ s.fsm = .idle ∨ s.fsm = .finished := by
  unfold busy; cases s.fsm <;> simp [Fsm.busy]

/-- The value of `STATUS` from the four parts it shows. -/
theorem status_of {s : State} {f : Fsm} {e t : Bool} {c : BitVec 2} {v : Byte}
    (hf : s.fsm = f) (he : s.err = e) (ht : s.termFound = t) (hc : s.cause = c)
    (hv : statusByte f e t c = v) : s.status = v := by rw [status, hf, he, ht, hc, hv]

theorem fits_iff (s : State) : s.fits = true ↔ s.nbits ≤ s.clen := by simp [fits]

/-! ### The core's step -/

theorem coreStep_of_not_busy {s : State} (h : s.busy = false) : s.coreStep = s := by
  rcases (not_busy_iff s).mp h with h | h <;> simp [coreStep, h]

theorem coreStep_encoding {s : State} (h : s.fsm = .encoding) : s.coreStep = s.encodeStep := by
  simp [coreStep, h]

theorem coreStep_accumulating {s : State} (h : s.fsm = .accumulating) :
    s.coreStep = s.decodeStep := by simp [coreStep, h]

/-- What a core step can be: none, a beat of one of the two units, or the end (R173, R177). -/
theorem coreStep_cases (s : State) :
    (s.busy = false ∧ s.coreStep = s) ∨
    (s.fsm = .encoding ∧ s.idx < s.nbits ∧ s.coreStep = s.encBeat) ∨
    (s.fsm = .encoding ∧ s.nbits ≤ s.idx ∧ s.coreStep = s.setFsm .finished) ∨
    (s.fsm = .accumulating ∧ s.idx < s.clen ∧ s.coreStep = s.decBeat) ∨
    (s.fsm = .accumulating ∧ s.clen ≤ s.idx ∧ s.coreStep = s.setFsm .finished) := by
  cases h : s.fsm
  · exact .inl ⟨by simp [busy, h, Fsm.busy], by simp [coreStep, h]⟩
  · by_cases hi : s.idx < s.nbits
    · exact .inr (.inl ⟨rfl, hi, by simp [coreStep, encodeStep, h, hi]⟩)
    · exact .inr (.inr (.inl ⟨rfl, Nat.not_lt.mp hi, by simp [coreStep, encodeStep, h, hi]⟩))
  · by_cases hi : s.idx < s.clen
    · exact .inr (.inr (.inr (.inl ⟨rfl, hi, by simp [coreStep, decodeStep, h, hi]⟩)))
    · exact .inr (.inr (.inr (.inr ⟨rfl, Nat.not_lt.mp hi,
        by simp [coreStep, decodeStep, decExhaust, h, hi]⟩)))
  · exact .inl ⟨by simp [busy, h, Fsm.busy], by simp [coreStep, h]⟩

@[simp] theorem coreStep_script (s : State) : s.coreStep.script = s.script := by
  rcases coreStep_cases s with ⟨_, h⟩ | ⟨_, _, h⟩ | ⟨_, _, h⟩ | ⟨_, _, h⟩ | ⟨_, _, h⟩ <;> simp [h]
@[simp] theorem coreStep_seen (s : State) : s.coreStep.seen = s.seen := by
  rcases coreStep_cases s with ⟨_, h⟩ | ⟨_, _, h⟩ | ⟨_, _, h⟩ | ⟨_, _, h⟩ | ⟨_, _, h⟩ <;> simp [h]
@[simp] theorem coreStep_plen (s : State) : s.coreStep.plen = s.plen := by
  rcases coreStep_cases s with ⟨_, h⟩ | ⟨_, _, h⟩ | ⟨_, _, h⟩ | ⟨_, _, h⟩ | ⟨_, _, h⟩ <;> simp [h]
@[simp] theorem coreStep_clen (s : State) : s.coreStep.clen = s.clen := by
  rcases coreStep_cases s with ⟨_, h⟩ | ⟨_, _, h⟩ | ⟨_, _, h⟩ | ⟨_, _, h⟩ | ⟨_, _, h⟩ <;> simp [h]
@[simp] theorem coreStep_memP (s : State) : s.coreStep.memP = s.memP := by
  rcases coreStep_cases s with ⟨_, h⟩ | ⟨_, _, h⟩ | ⟨_, _, h⟩ | ⟨_, _, h⟩ | ⟨_, _, h⟩ <;> simp [h]
@[simp] theorem coreStep_err (s : State) : s.coreStep.err = s.err := by
  rcases coreStep_cases s with ⟨_, h⟩ | ⟨_, _, h⟩ | ⟨_, _, h⟩ | ⟨_, _, h⟩ | ⟨_, _, h⟩ <;> simp [h]
@[simp] theorem coreStep_cause (s : State) : s.coreStep.cause = s.cause := by
  rcases coreStep_cases s with ⟨_, h⟩ | ⟨_, _, h⟩ | ⟨_, _, h⟩ | ⟨_, _, h⟩ | ⟨_, _, h⟩ <;> simp [h]

theorem MemoryWf.coreStep {s : State} (h : s.MemoryWf) : s.coreStep.MemoryWf := by
  rcases coreStep_cases s with ⟨_, e⟩ | ⟨_, _, e⟩ | ⟨_, _, e⟩ | ⟨_, _, e⟩ | ⟨_, _, e⟩ <;> rw [e]
  · exact h
  · exact h.encBeat
  · exact h.congr rfl rfl rfl
  · exact h.decBeat
  · exact h.congr rfl rfl rfl

end State

/-! ### A step of the machine -/

/-- What a command byte does to a state in which the core is not busy (R170). -/
def State.commandEffect (s : State) (w : Byte) : State :=
  match decodeCommand w with
  | .ok .nop => s
  | .ok .encode => s.acceptEncode
  | .ok .decode => s.acceptDecode
  | .error _ => s.raise .illegalCommand

theorem issue_eq (s : State) (w : Byte) :
    s.issue w = .next (if s.busy then s else s.commandEffect w) := by
  unfold State.issue State.commandEffect
  cases decodeCommand w with
  | error r => rfl
  | ok i => cases i <;> rfl

/-- The shapes a next state can have. -/
inductive Move (s : State) : State → Prop where
  /-- The core's step, with nothing due from the host. -/
  | core (h : s.script = [] ∨ ∃ rest, s.script = .wait :: rest ∧ s.busy = true) :
      Move s s.coreStep
  /-- The core's step, one of those the host lets pass. -/
  | run (n : Nat) (rest : List HostAction) (h : s.script = .run (n + 1) :: rest) :
      Move s (s.coreStep.setScript (.run n :: rest))
  /-- The host's action changes nothing but its script. -/
  | skip (a : HostAction) (rest : List HostAction) (h : s.script = a :: rest) :
      Move s (s.setScript rest)
  | reset (a : HostAction) (rest : List HostAction) (h : s.script = a :: rest)
      (ha : a = .reset ∨ ∃ w, a = .resetWith w) : Move s (s.setScript rest).resetInput
  | command (w : Byte) (rest : List HostAction) (h : s.script = .write (.ctrl w) :: rest)
      (hb : s.busy = false) : Move s ((s.setScript rest).commandEffect w)
  | plen (n : Nat) (rest : List HostAction) (h : s.script = .write (.plen n) :: rest)
      (hb : s.busy = false) : Move s ((s.setScript rest).setPlen n)
  | clen (n : Nat) (rest : List HostAction) (h : s.script = .write (.clen n) :: rest)
      (hb : s.busy = false) : Move s ((s.setScript rest).setClen n)
  | observe (a : HostAction) (x : Seen) (rest : List HostAction) (h : s.script = a :: rest)
      (ha : (∃ r, a = .read r ∧ x = .reg r (s.readReg r)) ∨
        ∃ sp i j, a = .dump sp i j ∧ x = .bytes sp i (s.readRange sp i j)) :
      Move s ((s.setScript rest).observe x)
  | load (sp : Space) (i : Nat) (bs : List Byte) (rest : List HostAction)
      (h : s.script = .load sp i bs :: rest) (hb : s.busy = false ∨ bs = []) :
      Move s ((s.setScript rest).writeBytes sp i bs)

theorem State.setScript_readRange (s : State) (as : List HostAction) (sp : Space) (i j : Nat) :
    (s.setScript as).readRange sp i j = s.readRange sp i j :=
  State.readRange_congr fun k _ _ => State.setScript_readMem s as sp k

theorem step_of_nil {s : State} (h : s.script = []) : step s = .next s.coreStep := by
  simp [step, State.move, h]

theorem step_of_cons {s : State} {a : HostAction} {rest : List HostAction}
    (h : s.script = a :: rest) : step s = s.hostStep a rest := by
  simp [step, State.move, h]

/-- Every next state is one of the moves. -/
theorem step_move {s t : State} (h : step s = .next t) : Move s t := by
  cases hs : s.script with
  | nil => rw [step_of_nil hs] at h; cases h; exact .core (.inl hs)
  | cons a rest =>
    rw [step_of_cons hs] at h
    cases a with
    | reset => cases h; exact .reset _ _ hs (.inl rfl)
    | resetWith w => cases h; exact .reset _ _ hs (.inr ⟨w, rfl⟩)
    | write w =>
      cases w with
      | ctrl w =>
        simp only [State.hostStep, State.writeReg, issue_eq] at h
        cases hb : s.busy
        · rw [State.setScript_busy, hb] at h; cases h; exact .command _ _ hs hb
        · rw [State.setScript_busy, hb] at h; cases h; exact .skip _ _ hs
      | plen n =>
        simp only [State.hostStep, State.writeReg, State.setScript_busy] at h
        cases hb : s.busy
        · rw [hb] at h; cases h; exact .plen _ _ hs hb
        · rw [hb] at h; cases h; exact .skip _ _ hs
      | clen n =>
        simp only [State.hostStep, State.writeReg, State.setScript_busy] at h
        cases hb : s.busy
        · rw [hb] at h; cases h; exact .clen _ _ hs hb
        · rw [hb] at h; cases h; exact .skip _ _ hs
      | status v => cases h; exact .skip _ _ hs
      | olen n => cases h; exact .skip _ _ hs
      | absent k n => cases h; exact .skip _ _ hs
    | read r => cases h; exact .observe _ _ _ hs (.inl ⟨r, rfl, rfl⟩)
    | load sp i bs =>
      simp only [State.hostStep, State.loadBytes, State.setScript_busy] at h
      split at h
      · cases h
      · next hc =>
        cases h
        refine .load _ _ _ _ hs ?_
        cases hb : s.busy
        · exact .inl rfl
        · simp only [hb, Bool.true_and, Bool.not_eq_true', Bool.not_eq_false] at hc
          exact .inr (by simpa using hc)
    | dump sp i j =>
      simp only [State.hostStep, State.dumpBytes, State.setScript_busy,
        State.setScript_readRange] at h
      split at h
      · cases h
      · cases h; exact .observe _ _ _ hs (.inr ⟨sp, i, j, rfl, rfl⟩)
    | wait =>
      simp only [State.hostStep] at h
      cases hb : s.busy
      · rw [hb] at h; cases h; exact .skip _ _ hs
      · rw [hb] at h; cases h; exact .core (.inr ⟨rest, hs, hb⟩)
    | run n =>
      cases n with
      | zero => cases h; exact .skip _ _ hs
      | succ n => cases h; exact .run n rest hs

/-! ### Runs of the core with nothing from the host -/

namespace State

@[simp] theorem coreSteps_zero (s : State) : s.coreSteps 0 = s := rfl

theorem coreSteps_succ (s : State) (n : Nat) : s.coreSteps (n + 1) = s.coreStep.coreSteps n := rfl

theorem coreSteps_add (s : State) (m n : Nat) :
    s.coreSteps (m + n) = (s.coreSteps m).coreSteps n := by
  induction m generalizing s with
  | zero => simp
  | succ m ih => rw [Nat.succ_add, coreSteps_succ, ih, coreSteps_succ]

theorem coreSteps_succ' (s : State) (n : Nat) :
    s.coreSteps (n + 1) = (s.coreSteps n).coreStep := coreSteps_add s n 1

theorem coreSteps_of_not_busy {s : State} (h : s.busy = false) (n : Nat) : s.coreSteps n = s := by
  induction n with
  | zero => rfl
  | succ n ih => rw [coreSteps_succ, coreStep_of_not_busy h, ih]

end State

/-- With an empty script `n` steps of the machine are `n` steps of the core (R182). -/
theorem run_eq_coreSteps {s : State} (h : s.script = []) (n : Nat) :
    Host.Core.run Sys2Proof.core n s = .next (s.coreSteps n) := by
  induction n generalizing s with
  | zero => rfl
  | succ n ih =>
    have hstep : Sys2Proof.core.step s = .next s.coreStep := step_of_nil h
    simp only [Host.Core.run, hstep]
    exact ih (by simpa using h)

end Sys2Proof.Machine
end

