-- ==== Sys2Proof/Tests/Slice0.lean ====
section
/-! SUPPORT. Tests of the model against the spec's own words and vectors, the smoke test of
the well-formedness checks, and for every statement with hypotheses a concrete state and
operands that meet them together. -/

namespace Sys2Proof.Machine.Tests

open Sys2Proof Sys2Proof.Machine

/-! ### Small states -/

/-- The bytes `bs` written from index `a` on. -/
def cells (a : Nat) : List Byte → Memory
  | [] => []
  | b :: bs => (a, b) :: cells (a + 1) bs

/-- Not busy, payload `[0xA5]`, the 16 channel bytes 0x10 to 0x1F (spec
95_test_vectors.md section 3, the exact fit). -/
def ready : State :=
  { State.reset with
    plen := 1
    clen := 16
    memP := cells 0 [0xA5]
    memC := cells 0 [0x10, 0x11, 0x12, 0x13, 0x14, 0x15, 0x16, 0x17,
      0x18, 0x19, 0x1A, 0x1B, 0x1C, 0x1D, 0x1E, 0x1F] }

/-- Ended by a DECODE that found the terminator after two bytes (`STATUS` = 0x0A,
`OLEN` = 2). -/
def ended : State :=
  { ready with
    fsm := .finished
    termFound := true
    idx := 24
    pidx := 3
    sr := 0x00
    acc := 0x00
    olen := 2
    memO := cells 0 [0x68, 0x69] }

/-- Ended by an `IllegalCommand` (`STATUS` = 0x26), `CLEN` = 18. -/
def faulted : State :=
  { ready with fsm := .finished, err := true, cause := 2, clen := 18 }

/-- The host about to do `a`. -/
def will (s : State) (a : HostAction) : State := { s with script := [a] }

/-- `ready` in mid ENCODE, five bits done: `SR` is 0xA5 shifted left five times. -/
def encoding5 : State :=
  { ready with
    fsm := .encoding
    idx := 5
    pbit := 5
    sr := 0xA0
    memC := cells 0 [0x11, 0x10, 0x13, 0x12, 0x14, 0x15, 0x16, 0x17,
      0x18, 0x19, 0x1A, 0x1B, 0x1C, 0x1D, 0x1E, 0x1F] }

/-- `ready` with its ENCODE at the last step, all sixteen bits done. -/
def encoding16 : State :=
  { ready with
    fsm := .encoding
    idx := 16
    pidx := 2
    memC := cells 0 [0x11, 0x10, 0x13, 0x12, 0x14, 0x15, 0x16, 0x17,
      0x18, 0x18, 0x1A, 0x1A, 0x1C, 0x1D, 0x1E, 0x1E] }

/-- The channel buffer of the decoder trace (95_test_vectors.md section 4). -/
def traceC : Memory :=
  cells 0 [0x20, 0x21, 0x21, 0x20, 0x21, 0x20, 0x20, 0x20,
    0x20, 0x20, 0x20, 0x20, 0x20, 0x21, 0x20, 0x20]

/-- The decoder trace before its step 7. -/
def decoding7 : State :=
  { State.reset with
    fsm := .accumulating, clen := 16, memC := traceC, idx := 7, acc := 0x68, bitpos := 7 }

/-- The decoder trace before its step 15. -/
def decoding15 : State :=
  { State.reset with
    fsm := .accumulating
    clen := 16
    memC := traceC
    idx := 15
    acc := 0x04
    bitpos := 7
    olen := 1
    memO := cells 0 [0x68] }

/-- Seven odd channel bytes, all of them read (95_test_vectors.md section 4). -/
def exhausted7 : State :=
  { State.reset with
    fsm := .accumulating
    clen := 7
    memC := cells 0 [0x01, 0x01, 0x01, 0x01, 0x01, 0x01, 0x01]
    idx := 7
    acc := 0xFE
    bitpos := 7 }

/-! ### Well-formedness and decoding (30_encoding.md R80 to R84) -/

/-- A byte whose `RSV` is not 0 fails that check, and that check alone. -/
theorem test_wellformed_rsv :
    rsvIsZero 0x04 = false ∧ opIsDefined 0x04 = true ∧ wellFormedByte 0x04 = false := by decide

/-- The byte with `OP` = 11 fails that check, and that check alone. -/
theorem test_wellformed_op :
    opIsDefined 0x03 = false ∧ rsvIsZero 0x03 = true ∧ wellFormedByte 0x03 = false := by decide

/-- The three bytes of the opcode map pass both checks. -/
theorem test_wellformed_commands :
    wellFormedByte 0x00 = true ∧ wellFormedByte 0x01 = true ∧ wellFormedByte 0x02 = true ∧
    Instr.wellFormed .nop = true ∧ Instr.wellFormed .encode = true ∧
    Instr.wellFormed .decode = true := by decide

/-- `NOP` is 00000000 (R81). -/
theorem test_decode_nop : decodeCommand 0b00000000#8 = .ok .nop := by decide

/-- `ENCODE` is 00000001 (R81). -/
theorem test_decode_encode : decodeCommand 0b00000001#8 = .ok .encode := by decide

/-- `DECODE` is 00000010 (R81). -/
theorem test_decode_decode : decodeCommand 0b00000010#8 = .ok .decode := by decide

/-- `OP` right and `RSV` not 0 is no command (95_test_vectors.md section 5, `CMD 0x81`). -/
theorem test_decode_reserved :
    decodeCommand 0b10000001#8 = .error (.reservedCommand 0x81) ∧
    decodeCommand 0b00000011#8 = .error (.reservedCommand 0x03) := by decide

/-- The opcode table's words reach the first step after reset. -/
theorem test_table_word_steps :
    step (State.reset.withFetchWord 8 1) = exec .encode State.reset ∧
    step (State.reset.withFetchWord 8 2) = exec .decode State.reset := ⟨rfl, rfl⟩

/-! ### The commands (95_test_vectors.md section 5) -/

/-- `NOP` after a DECODE: `STATUS` 0x0A and `OLEN` 2 stay. -/
theorem test_nop_keeps_status :
    ∃ t, exec .nop ended = .next t ∧ t.status = 0x0A ∧ t.olen = 2 := ⟨_, rfl, by decide⟩

/-- `NOP` after a fault: `STATUS` 0x26 stays. -/
theorem test_nop_keeps_fault :
    ∃ t, exec .nop faulted = .next t ∧ t.status = 0x26 := ⟨_, rfl, by decide⟩

/-- `ENCODE` right after reset: 8 > 0, `STATUS` 0x16. -/
theorem test_encode_after_reset :
    ∃ t, exec .encode State.reset = .next t ∧ t.status = 0x16 ∧ t.fsm = .finished :=
  ⟨_, rfl, by decide⟩

/-- `ENCODE` with an exact fit starts, and clears the flags of the command before. -/
theorem test_encode_exact_fit :
    ∃ t, exec .encode ended = .next t ∧ t.status = 0x01 ∧ t.idx = 0 ∧ t.pidx = 0 ∧ t.olen = 2 :=
  ⟨_, rfl, by decide⟩

/-- `DECODE` after a fault: `STATUS` 0x01 at once. -/
theorem test_decode_clears_fault :
    ∃ t, exec .decode faulted = .next t ∧ t.status = 0x01 := ⟨_, rfl, by decide⟩

/-- `DECODE` right after reset ends at its first step: `STATUS` 0x02, `OLEN` 0. -/
theorem test_decode_after_reset :
    ∃ t u, exec .decode State.reset = .next t ∧ step t = .next u ∧ u.status = 0x02 ∧
      u.olen = 0 := ⟨_, _, rfl, rfl, by decide⟩

/-- `CMD 0x03` after a DECODE: `STATUS` 0x26, `OLEN` stays 2. -/
theorem test_reserved_byte :
    ∃ t, step (will ended (.write (.ctrl 0x03))) = .next t ∧ t.status = 0x26 ∧ t.olen = 2 :=
  ⟨_, rfl, by decide⟩

/-- While an ENCODE runs, `CMD 0xFF` and `WR CLEN, 0` are ignored. -/
theorem test_ignored_while_busy :
    ∃ t u, step (will encoding5 (.write (.ctrl 0xFF))) = .next t ∧
      step (will encoding5 (.write (.clen 0))) = .next u ∧
      t.status = 0x01 ∧ t.idx = 5 ∧ u.clen = 16 := ⟨_, _, rfl, rfl, by decide⟩

/-! ### The units -/

/-- The first packer step of payload 0xA5: bit 1, `SR` 0x4A (40_bit_packer.md R107). -/
theorem test_pack_next_first :
    ready.packBit = true ∧ ready.packNext.sr = 0x4A ∧ ready.packNext.pbit = 1 ∧
    ready.packNext.pidx = 0 := by decide

/-- The packer's first step of the terminator: bit 0, `SR` 0x08, `PBIT` 1 (95_test_vectors.md
section 2, call 16, with `PLEN` = 1 here). -/
theorem test_pack_next_terminator :
    (ready.setPacker 1 0 0x00).packBit = false ∧
    (ready.setPacker 1 0 0x00).packNext.sr = 0x08 ∧
    (ready.setPacker 1 7 0x00).packNext.pidx = 2 := by decide

/-- `IDX` = 5, `C[5]` = 0x7E, packer bit 1: `C[5]` becomes 0x7F, `IDX` 6
(41_channel_encoder.md R126). -/
theorem test_encoder_beat :
    ((encoding5.writeMem .c 5 0x7E).encBeat).readMem .c 5 = 0x7F ∧
    ((encoding5.writeMem .c 5 0x7E).encBeat).idx = 6 := by decide

/-- `ACC` = 0x68, `BITPOS` = 7 and `C[IDX]` = 0x01: 0x69 is appended
(42_channel_decoder.md R152). -/
theorem test_decoder_beat_append :
    ((decoding7.writeMem .c 7 0x01).decBeat).readMem .o 0 = 0x69 ∧
    ((decoding7.writeMem .c 7 0x01).decBeat).olen = 1 ∧
    ((decoding7.writeMem .c 7 0x01).decBeat).fsm = .accumulating := by decide

/-- `ACC` = 0x04, `BITPOS` = 7 and `C[IDX]` = 0xFE: `TERM` 1, `FINISHED`, `OLEN` unchanged
(42_channel_decoder.md R152). -/
theorem test_decoder_beat_terminator :
    ((decoding15.writeMem .c 15 0xFE).decBeat).status = 0x0A ∧
    ((decoding15.writeMem .c 15 0xFE).decBeat).olen = 1 := by decide

/-- Step 13 of the decoder trace: a partial `ACC` of 0x04 with `BITPOS` = 6 does not end the
operation. -/
theorem test_decoder_partial_terminator :
    (({ decoding15 with idx := 13, acc := 0x00, bitpos := 5 } : State).decBeat).acc = 0x04 ∧
    (({ decoding15 with idx := 13, acc := 0x00, bitpos := 5 } : State).decBeat).fsm
      = .accumulating := by decide

/-- The source's payload "hi" (95_test_vectors.md S1). -/
theorem test_pack_hi :
    Codec.pack [0x68, 0x69] =
      [false, true, true, false, true, false, false, false,
       false, true, true, false, true, false, false, true,
       false, false, false, false, false, true, false, false] := by decide

/-- High bits kept, ninth byte untouched (95_test_vectors.md section 3, third row). -/
theorem test_encode_vector :
    Codec.encode [0x80, 0x7F, 0x01, 0xFE, 0x00, 0xFF, 0x02, 0xFD, 0x33] (Codec.pack []) =
      some [0x80, 0x7E, 0x00, 0xFE, 0x00, 0xFF, 0x02, 0xFC, 0x33] := by decide

/-- The general function: a short bit sequence, and one too long (section 3). -/
theorem test_encode_general :
    Codec.encode [0x02, 0x03, 0x04, 0x05] [true, false, true] =
      some [0x03, 0x02, 0x05, 0x05] ∧
    Codec.encode [0x09, 0x09] [true, true, true] = none := by decide

/-- A partial last group is discarded (95_test_vectors.md section 4). -/
theorem test_decode_vector_partial :
    Codec.decodeRun [0x10, 0x11, 0x10, 0x10, 0x10, 0x10, 0x10, 0x11, 0x21, 0x20, 0x21] =
      { bytes := [0x41], found := false, read := 11 } := by decide

/-- 00000100 across a group boundary is no terminator (95_test_vectors.md section 4). -/
theorem test_decode_vector_boundary :
    Codec.decodeRun [0, 0, 0, 0, 0, 0, 1, 0, 0, 1, 0, 0, 0, 0, 0, 0] =
      { bytes := [0x02, 0x40], found := false, read := 16 } := by decide

/-! ### Host actions and reset -/

/-- A read of `OLEN` while busy is noted (10_state.md R41). -/
theorem test_read_olen_while_busy :
    ∃ t, step (will decoding15 (.read .olen)) = .next t ∧ t.seen = [.reg .olen 1] :=
  ⟨_, rfl, by decide⟩

/-- A reset keeps memory and clears the registers (10_state.md R43). -/
theorem test_reset_mid_operation :
    ∃ t, step (will encoding5 (.resetWith (.ctrl 0x01))) = .next t ∧ t.status = 0x00 ∧
      t.clen = 0 ∧ t.readMem .c 1 = 0x10 := ⟨_, rfl, by decide⟩

/-! ### States that meet the invariant, running and ended -/

/-- The three memories of each state above are canonical. -/
theorem memory_wf {s : State} (hp : s.memP.wf) (hc : s.memC.wf) (ho : s.memO.wf) :
    s.MemoryWf := ⟨hp, hc, ho⟩

theorem encoding5_inv : encoding5.Inv :=
  ⟨by decide, by decide, by decide, by decide, by decide,
    fun _ => ⟨by decide, by decide, by decide, by decide, by decide⟩, fun h => (by cases h),
    memory_wf (by decide) (by decide) (by decide)⟩

theorem encoding16_inv : encoding16.Inv :=
  ⟨by decide, by decide, by decide, by decide, by decide,
    fun _ => ⟨by decide, by decide, by decide, by decide, by decide⟩, fun h => (by cases h),
    memory_wf (by decide) (by decide) (by decide)⟩

theorem decoding7_inv : decoding7.Inv :=
  ⟨by decide, by decide, by decide, by decide, by decide, fun h => (by cases h),
    fun _ => ⟨by decide, by decide, by decide, by decide, by decide, by decide⟩,
    memory_wf (by decide) (by decide) (by decide)⟩

theorem decoding15_inv : decoding15.Inv :=
  ⟨by decide, by decide, by decide, by decide, by decide, fun h => (by cases h),
    fun _ => ⟨by decide, by decide, by decide, by decide, by decide, by decide⟩,
    memory_wf (by decide) (by decide) (by decide)⟩

theorem exhausted7_inv : exhausted7.Inv :=
  ⟨by decide, by decide, by decide, by decide, by decide, fun h => (by cases h),
    fun _ => ⟨by decide, by decide, by decide, by decide, by decide, by decide⟩,
    memory_wf (by decide) (by decide) (by decide)⟩

theorem ended_inv : ended.Inv :=
  ⟨by decide, by decide, by decide, by decide, by decide, fun h => (by cases h),
    fun h => (by cases h), memory_wf (by decide) (by decide) (by decide)⟩

theorem ready_inv : ready.Inv :=
  ⟨by decide, by decide, by decide, by decide, by decide, fun h => (by cases h),
    fun h => (by cases h), memory_wf (by decide) (by decide) (by decide)⟩

/-! ### For each statement with hypotheses, data that meet them, clause by clause -/

theorem test_witness_CommandByteRoundTrip : decodeCommand 0x02 = .ok .decode := by decide

theorem test_witness_StepRunsDecodedCommand :
    (will ready (.write (.ctrl 0x01))).script = .write (.ctrl 0x01) :: [] ∧
    decodeCommand 0x01 = .ok .encode ∧ decodeTableWord 8 2 = some .decode ∧
    decoding7.script = [] := by decide

theorem test_witness_CtrlWriteIssue :
    (will encoding5 (.write (.ctrl 0x02))).script = .write (.ctrl 0x02) :: [] ∧
    (will encoding5 (.write (.ctrl 0x02))).fsm = .encoding ∧
    (will decoding7 (.write (.plen 0))).script = .write (.plen 0) :: [] ∧
    (will decoding7 (.write (.plen 0))).fsm = .accumulating ∧
    (will ready (.write (.ctrl 0x00))).script = .write (.ctrl 0x00) :: [] ∧
    (will ready (.write (.ctrl 0x00))).fsm = .idle ∧ decodeCommand 0x00 = .ok .nop ∧
    (will ended (.write (.ctrl 0x03))).script = .write (.ctrl 0x03) :: [] ∧
    (will ended (.write (.ctrl 0x03))).fsm = .finished ∧
    decodeCommand 0x03 = .error (.reservedCommand 0x03) := by decide

/-- Equality passes, one less does not. -/
theorem test_witness_EncodeAcceptance :
    ready.busy = false ∧ 8 * (ready.plen + 1) ≤ ready.clen ∧
    (ready.setClen 15).busy = false ∧
    (ready.setClen 15).clen < 8 * ((ready.setClen 15).plen + 1) := by decide

/-- Width 3 with the longest payload and the longest buffer; the exact fit; one less. -/
theorem test_witness_CapacityCheckNeverWraps :
    ((ready.setPlen 7).setClen 7).busy = false ∧
    ((ready.setPlen 7).setClen 7).plen = 2 ^ 3 - 1 ∧
    ((ready.setPlen 7).setClen 7).clen < 2 ^ 3 ∧
    ready.clen = 8 * (ready.plen + 1) ∧
    (ready.setClen 15).clen + 1 = 8 * ((ready.setClen 15).plen + 1) := by decide

/-- An empty buffer too. -/
theorem test_witness_DecodeAcceptance :
    State.reset.busy = false ∧ State.reset.clen = 0 ∧ ended.busy = false := by decide

theorem test_witness_ReservedByteRaisesIllegalCommand :
    (will ended (.write (.ctrl 0x03))).script = .write (.ctrl 0x03) :: [] ∧
    3 ≤ (0x03 : Byte).toNat ∧ (will ended (.write (.ctrl 0x03))).busy = false ∧
    (will decoding7 (.write (.ctrl 0xFF))).script = .write (.ctrl 0xFF) :: [] ∧
    3 ≤ (0xFF : Byte).toNat ∧ (will decoding7 (.write (.ctrl 0xFF))).busy = true := by decide

theorem test_witness_FaultsExactlyAsTheTable :
    (will (ready.setClen 15) (.write (.ctrl 0x01))).script = .write (.ctrl 0x01) :: [] ∧
    (will (ready.setClen 15) (.write (.ctrl 0x01))).busy = false ∧ (0x01 : Byte) ≠ 0x00 ∧
    (will ended (.write (.ctrl 0x04))).script = .write (.ctrl 0x04) :: [] ∧
    (will ended (.write (.ctrl 0x04))).busy = false ∧ (0x04 : Byte) ≠ 0x00 := by decide

/-- A command and a reset that each clear the flags. -/
theorem test_witness_FaultFlagsPersist :
    (∃ t, step (will faulted (.write (.ctrl 0x02))) = .next t ∧
      ¬ (t.err = (will faulted (.write (.ctrl 0x02))).err ∧
        t.cause = (will faulted (.write (.ctrl 0x02))).cause)) ∧
    (∃ t, step (will faulted .reset) = .next t ∧
      ¬ (t.err = (will faulted .reset).err ∧ t.cause = (will faulted .reset).cause)) :=
  ⟨⟨_, rfl, by decide⟩, ⟨_, rfl, by decide⟩⟩

/-- Each command, and one given to a busy core. -/
theorem test_witness_CommandFrame :
    (∃ t, exec .nop ended = .next t) ∧ (∃ t, exec .encode ended = .next t) ∧
    (∃ t, exec .decode ended = .next t) ∧
    (∃ t, exec .decode encoding5 = .next t) ∧ encoding5.busy = true :=
  ⟨⟨_, rfl⟩, ⟨_, rfl⟩, ⟨_, rfl⟩, ⟨_, rfl⟩, by decide⟩

/-- A byte loaded, the terminator loaded, and the last bit of a byte; and a running ENCODE in
the middle and at its end. -/
theorem test_witness_PackerStep :
    (0xA5 : Byte) = (if ready.pbit = 0 then
      (if ready.pidx < ready.plen then ready.readMem .p ready.pidx else 0x04) else ready.sr) ∧
    (0x04 : Byte) = (if encoding16.pbit = 0 then
      (if encoding16.pidx < encoding16.plen then encoding16.readMem .p encoding16.pidx
        else 0x04) else encoding16.sr) ∧
    (0x80 : Byte) = (if (ready.setPacker 0 7 0x80).pbit = 0 then
      (if (ready.setPacker 0 7 0x80).pidx < (ready.setPacker 0 7 0x80).plen then
        (ready.setPacker 0 7 0x80).readMem .p (ready.setPacker 0 7 0x80).pidx else 0x04)
      else (ready.setPacker 0 7 0x80).sr) ∧
    encoding5.Inv ∧ encoding5.fsm = .encoding ∧ encoding5.idx < 8 * (encoding5.plen + 1) ∧
    encoding16.Inv ∧ encoding16.fsm = .encoding ∧
    encoding16.idx = 8 * (encoding16.plen + 1) :=
  ⟨by decide, by decide, by decide, encoding5_inv, by decide, by decide, encoding16_inv,
    by decide, by decide⟩

/-- The first and the last bit of the message, and one in mid byte. -/
theorem test_witness_PackerStepsComputePack :
    0 < 8 * (ready.plen + 1) ∧ 15 < 8 * (ready.plen + 1) ∧ 5 % 8 ≠ 0 := by decide

theorem test_witness_PackClosedForm :
    0 < ([0xA5] : List Byte).length ∧ (0 : Nat) < 8 ∧ (7 : Nat) < 8 := by decide

/-- An exact fit with a byte and its bit, the byte beyond the bits, and too many bits. -/
theorem test_witness_EncodeClosedForm :
    ([true, false] : List Bool).length ≤ ([0x10, 0x11] : List Byte).length ∧
    ([0x10, 0x11] : List Byte)[1]? = some 0x11 ∧ ([true, false] : List Bool)[1]? = some false ∧
    ([true] : List Bool).length ≤ 1 ∧
    ([0x10] : List Byte).length < ([true, false] : List Bool).length := by decide

theorem test_witness_PerturbationAtMostOne :
    bitOf 0xFF 0 = true ∧ bitOf 0x00 0 = false ∧ bitOf 0xFE 0 = false := by decide

/-- Two messages over eight bytes, the first the empty one, the second the empty one. -/
theorem test_witness_EncodingTwice :
    Codec.encode [0, 0, 0, 0, 0, 0, 0, 0] (Codec.pack []) = some [0, 0, 0, 0, 0, 1, 0, 0] ∧
    Codec.encode [0, 0, 0, 0, 0, 1, 0, 0] (Codec.pack []) = some [0, 0, 0, 0, 0, 1, 0, 0] ∧
    Config.terminator ∉ ([] : List Byte) := by decide

theorem test_witness_EncoderBeat :
    encoding5.script = [] ∧ encoding5.fsm = .encoding ∧
    encoding5.idx < 8 * (encoding5.plen + 1) ∧ encoding5.Inv :=
  ⟨by decide, by decide, by decide, encoding5_inv⟩

/-- The two clauses meet at `IDX` = 16. -/
theorem test_witness_EncodeRunStep :
    encoding5.script = [] ∧ encoding5.fsm = .encoding ∧
    (encoding5.setIdx 15).idx < 8 * (encoding5.plen + 1) ∧
    encoding16.script = [] ∧ encoding16.fsm = .encoding ∧
    8 * (encoding16.plen + 1) ≤ encoding16.idx := by decide

theorem test_witness_GroupByteIsWeightedSum :
    8 * (0 + 1) ≤ ([0, 1, 0, 1, 0, 1, 0, 1] : List Byte).length := by decide

/-- Terminator in group 0, and no terminator in a buffer of one group. -/
theorem test_witness_DecodeClosedForm :
    0 < ([0, 0, 0, 0, 0, 1, 0, 0] : List Byte).length / 8 ∧
    Codec.groupByte [0, 0, 0, 0, 0, 1, 0, 0] 0 = 0x04 ∧
    1 ≤ ([0, 0, 0, 0, 0, 0, 0, 0] : List Byte).length / 8 ∧
    (∀ g < 1, Codec.groupByte [0, 0, 0, 0, 0, 0, 0, 0] g ≠ 0x04) ∧
    ¬ 1 < ([0, 0, 0, 0, 0, 0, 0, 0] : List Byte).length / 8 := by decide

theorem test_witness_DecodeUsesOnlyLsbs :
    ([0xFE, 0x11] : List Byte).map (· &&& 0x01) = ([0x00, 0x01] : List Byte).map (· &&& 0x01)
    := by decide

theorem test_witness_DecodeOutputBound :
    (Codec.decodeRun [0, 0, 0, 0, 0, 1, 0, 0]).found = true := by decide

/-- The empty payload in eight bytes, an exact fit. -/
theorem test_witness_CodecRoundTrip :
    (0x04 : Byte) ∉ ([] : List Byte) ∧
    8 * (([] : List Byte).length + 1) ≤ ([0, 0, 0, 0, 0, 0, 0, 0] : List Byte).length := by
  decide

/-- The payload that is the byte 0x04 alone. -/
theorem test_witness_EarlyTruncation :
    ([0x04] : List Byte)[0]? = some 0x04 ∧ (0x04 : Byte) ∉ ([0x04] : List Byte).take 0 ∧
    Codec.encode [0, 0, 0, 0, 0, 0, 0, 0, 0, 0, 0, 0, 0, 0, 0, 0] (Codec.pack [0x04]) =
      some [0, 0, 0, 0, 0, 1, 0, 0, 0, 0, 0, 0, 0, 1, 0, 0] := by decide

/-- A bit in mid group, a byte appended, and the terminator. -/
theorem test_witness_DecoderBeat :
    (decoding7.script = [] ∧ decoding7.fsm = .accumulating ∧ decoding7.idx < decoding7.clen ∧
      (0x68 : Byte) = putBit decoding7.acc (7 - decoding7.bitpos.toNat)
        (bitOf (decoding7.readMem .c decoding7.idx) 0) ∧
      decoding7.bitpos = 7 ∧ (0x68 : Byte) ≠ 0x04) ∧
    (decoding15.script = [] ∧ decoding15.fsm = .accumulating ∧
      decoding15.idx < decoding15.clen ∧
      (0x04 : Byte) = putBit decoding15.acc (7 - decoding15.bitpos.toNat)
        (bitOf (decoding15.readMem .c decoding15.idx) 0) ∧ decoding15.bitpos = 7) ∧
    ((decoding7.setIdx 0).setAcc 0x00 0).bitpos ≠ 7 ∧
    ((decoding7.setIdx 0).setAcc 0x00 0).idx < decoding7.clen := by decide

theorem test_witness_DecoderExhaust :
    exhausted7.script = [] ∧ exhausted7.fsm = .accumulating ∧ exhausted7.idx = exhausted7.clen ∧
    State.reset.script = [] ∧ State.reset.busy = false ∧ State.reset.clen = 0 := by decide

theorem test_witness_EncodeWholeOperation :
    ready.busy = false ∧ ready.script = [] ∧ 8 * (ready.plen + 1) ≤ ready.clen ∧
    (ready.setClen 15).clen < 8 * ((ready.setClen 15).plen + 1) := by decide

/-- A buffer with the terminator and one without. -/
theorem test_witness_DecodeWholeOperation :
    ended.busy = false ∧ ended.script = [] ∧
    (Codec.decodeRun [0, 0, 0, 0, 0, 1, 0, 0]).found = true ∧
    (Codec.decodeRun [0, 0, 0]).found = false := by decide

/-- An ENCODE that fits, of a payload without 0x04 and of one that is 0x04; and a later state
with the same `CLEN` and C: the ENCODE's own end. -/
theorem test_witness_EncodeThenDecode :
    ready.busy = false ∧ ready.script = [] ∧ 8 * (ready.plen + 1) ≤ ready.clen ∧
    (0x04 : Byte) ∉ ready.payload ∧
    (ready.writeMem .p 0 0x04).payload[0]? = some 0x04 ∧
    (0x04 : Byte) ∉ (ready.writeMem .p 0 0x04).payload.take 0 ∧
    (encoding16.setFsm .finished).busy = false ∧ (encoding16.setFsm .finished).script = [] ∧
    (encoding16.setFsm .finished).clen = ready.clen := by decide

/-- Two states that differ in `PLEN`, in P and in O. -/
theorem test_witness_DecodeIgnoresPayloadAndOldOutput :
    ready.busy = false ∧ (ended.setPlen 0).busy = false ∧ ready.script = [] ∧
    (ended.setPlen 0).script = [] ∧ ready.clen = (ended.setPlen 0).clen ∧
    ∀ i < ready.clen, ready.readMem .c i = (ended.setPlen 0).readMem .c i := by decide

theorem test_witness_EveryOperationEnds :
    (encoding5.Inv ∧ encoding5.busy = true ∧ encoding5.script = []) ∧
    (exhausted7.Inv ∧ exhausted7.busy = true ∧ exhausted7.script = []) :=
  ⟨⟨encoding5_inv, by decide⟩, ⟨exhausted7_inv, by decide⟩⟩

/-- The end of an ENCODE, the terminator of a DECODE, its exhaustion, and a command. -/
theorem test_witness_ControlTransfers :
    (encoding16.Inv ∧ ∃ t, step encoding16 = .next t ∧ t.fsm ≠ encoding16.fsm) ∧
    (decoding15.Inv ∧ ∃ t, step decoding15 = .next t ∧ t.fsm ≠ decoding15.fsm) ∧
    (exhausted7.Inv ∧ ∃ t, step exhausted7 = .next t ∧ t.fsm ≠ exhausted7.fsm) ∧
    (∃ t, step (will ended (.write (.ctrl 0x02))) = .next t ∧ t.fsm ≠ ended.fsm) :=
  ⟨⟨encoding16_inv, _, rfl, by decide⟩, ⟨decoding15_inv, _, rfl, by decide⟩,
    ⟨exhausted7_inv, _, rfl, by decide⟩, ⟨_, rfl, by decide⟩⟩

theorem test_witness_CoreStepFrame :
    (encoding5.script = [] ∧ ∃ t, step encoding5 = .next t) ∧
    (decoding7.script = [] ∧ ∃ t, step decoding7 = .next t) ∧
    (ready.script = [] ∧ ready.busy = false ∧ ∃ t, step ready = .next t) :=
  ⟨⟨by decide, _, rfl⟩, ⟨by decide, _, rfl⟩, ⟨by decide, by decide, _, rfl⟩⟩

theorem test_witness_StatusLegalValues : ended.Inv ∧ decoding15.Inv := ⟨ended_inv, decoding15_inv⟩

/-- Every register read, and each kind of ignored write. -/
theorem test_witness_RegisterPort :
    (∀ n ∈ [0, 1, 2, 3, 4, 5],
      (will ended (.read (HostReg.ofNumber n))).script = .read (HostReg.ofNumber n) :: []) ∧
    (∀ w ∈ [RegWrite.status 0xFF, .olen 9, .absent 0 1],
      (will ended (.write w)).script = .write w :: []) := by decide

theorem test_witness_LengthRegisterWrites :
    (will ready (.write (.plen 2))).script = .write (.plen 2) :: [] ∧
    (will ready (.write (.plen 2))).busy = false ∧
    (will encoding5 (.write (.plen 2))).script = .write (.plen 2) :: [] ∧
    (will encoding5 (.write (.plen 2))).busy = true ∧
    (will ready (.write (.clen 2))).script = .write (.clen 2) :: [] ∧
    (will ready (.write (.clen 2))).busy = false ∧
    (will encoding5 (.write (.clen 2))).script = .write (.clen 2) :: [] ∧
    (will encoding5 (.write (.clen 2))).busy = true := by decide

/-- Another space at the same index, and the next index of the same space. -/
theorem test_witness_MemoryWriteThenRead :
    (Space.o ≠ Space.c ∨ 3 ≠ 3) ∧ (Space.c ≠ Space.c ∨ 4 ≠ 3) := by decide

theorem test_witness_HostMemoryAccess :
    (will ready (.load .c 2 [0xAA, 0xBB])).busy = false ∧
    (will ready (.load .c 2 [0xAA, 0xBB])).script = .load .c 2 [0xAA, 0xBB] :: [] ∧
    ([0xAA, 0xBB] : List Byte)[1]? = some 0xBB ∧
    ¬ (Space.c = Space.c ∧ 2 ≤ 4 ∧ 4 < 2 + ([0xAA, 0xBB] : List Byte).length) ∧
    (will ready (.dump .c 0 16)).script = .dump .c 0 16 :: [] ∧ 0 + 15 < 16 := by decide

theorem test_witness_BusyMemoryAccessRefused :
    (will decoding7 (.load .o 0 [0x00])).busy = true ∧
    (will decoding7 (.load .o 0 [0x00])).script = .load .o 0 [0x00] :: [] ∧
    ([0x00] : List Byte) ≠ [] ∧
    (will decoding7 (.dump .c 0 1)).busy = true ∧
    (will decoding7 (.dump .c 0 1)).script = .dump .c 0 1 :: [] ∧ 0 < 1 := by decide

theorem test_witness_IdleCoreWaits :
    State.reset.busy = false ∧ State.reset.script = [] ∧ ended.busy = false ∧
    ended.script = [] := by decide

theorem test_witness_ResetFromAnyState :
    (will encoding5 .reset).script = .reset :: [] ∧
    (will decoding7 (.resetWith (.ctrl 0x02))).script = .resetWith (.ctrl 0x02) :: [] := by
  decide

/-- No step taken, and all sixteen. -/
theorem test_witness_ResetDuringEncode :
    ready.busy = false ∧ ready.script = [] ∧ 8 * (ready.plen + 1) ≤ ready.clen ∧
    0 ≤ 8 * (ready.plen + 1) ∧ 16 ≤ 8 * (ready.plen + 1) := by decide

theorem test_witness_ResetDuringDecode :
    (will decoding15 .reset).Inv ∧ (will decoding15 .reset).fsm = .accumulating ∧
    (will decoding15 .reset).script = .reset :: [] :=
  ⟨⟨by decide, by decide, by decide, by decide, by decide, fun h => (by cases h),
    fun _ => ⟨by decide, by decide, by decide, by decide, by decide, by decide⟩,
    memory_wf (by decide) (by decide) (by decide)⟩, by decide, by decide⟩

/-- The core's steps of each operation and a host action each start at the invariant. -/
theorem test_witness_StepKeepsInvariant :
    (encoding5.Inv ∧ ∃ t, step encoding5 = .next t) ∧
    (decoding7.Inv ∧ ∃ t, step decoding7 = .next t) ∧
    (ready.Inv ∧ ∃ t, step ready = .next t) :=
  ⟨⟨encoding5_inv, _, rfl⟩, ⟨decoding7_inv, _, rfl⟩, ⟨ready_inv, _, rfl⟩⟩

theorem test_witness_StepKeepsMemoryCanonical :
    (will ready (.load .c 20 [0x01, 0x02])).MemoryWf ∧
    (∃ t, step (will ready (.load .c 20 [0x01, 0x02])) = .next t) ∧
    encoding5.MemoryWf ∧ ∃ t, step encoding5 = .next t :=
  ⟨memory_wf (by decide) (by decide) (by decide), ⟨_, rfl⟩,
    memory_wf (by decide) (by decide) (by decide), _, rfl⟩

/-- Width 5, the least that holds the length 16, and the unbounded one. -/
theorem test_witness_StepKeepsLengthsInLenW :
    encoding5.Inv ∧ encoding5.FitsLenW (some 5) ∧ encoding5.FitsLenW none ∧
    ∃ t, step encoding5 = .next t :=
  ⟨encoding5_inv,
    ⟨by decide, by decide, by decide, by decide, by decide, fun a h => (by cases h)⟩,
    ⟨trivial, trivial, trivial, trivial, trivial, fun a h => (by cases h)⟩, _, rfl⟩

end Sys2Proof.Machine.Tests
end

/-! The scope's two statements (spec 00_scope.md): the capacity check of an ENCODE is exact
(R10, R121), and every step keeps the lengths and indices within the width `LENW` (R7). -/

namespace Sys2Proof.Machine

/-! ### The acceptance of an ENCODE, by the outcome of its capacity check -/

/-- An ENCODE that fits starts (R172). -/
theorem exec_encode_of_fits {s : State} (hb : s.busy = false) (h : s.nbits ≤ s.clen) :
    exec .encode s = .next s.startEncode := by
  simp [exec, execEncode, State.unlessBusy, State.acceptEncode, State.fits_iff, hb, h]

/-- An ENCODE that does not fit raises the capacity fault (R172, R201). -/
theorem exec_encode_of_not_fits {s : State} (hb : s.busy = false) (h : s.clen < s.nbits) :
    exec .encode s = .next (s.clearFlags.raise .capacityError) := by
  simp [exec, execEncode, State.unlessBusy, State.acceptEncode, State.fits_iff, hb, h]

@[simp] theorem State.startEncode_fsm (s : State) : s.startEncode.fsm = .encoding := rfl

/-- `STATUS` after the capacity fault: `FIN`, `ERR` and cause 1 (R32, R206). -/
theorem State.status_raise_capacityError (s : State) :
    (s.raise .capacityError).status = 0x16 :=
  status_of (f := .finished) (e := true) (t := false) (c := 1) rfl rfl rfl rfl (by decide)

@[simp] theorem State.raise_memC (s : State) (f : CoreFault) : (s.raise f).memC = s.memC := rfl

/-- Settles O9: a buffer whose length fits in `w` bits is shorter than the `8 * 2 ^ w` bits of
the longest payload, so the check on unbounded naturals fails there; the other two clauses
are its two sides at the limit. -/
theorem capacityCheckNeverWraps : Obligations.CapacityCheckNeverWraps := by
  unfold Obligations.CapacityCheckNeverWraps
  refine fun s hb => ⟨fun w hplen hclen => ?_, fun hclen => ?_, fun hclen => ?_⟩
  · have hlong : s.clen < s.nbits := by unfold State.nbits; omega
    exact ⟨_, exec_encode_of_not_fits hb hlong, State.status_raise_capacityError _, by
      simp [State.clearFlags]⟩
  · exact ⟨_, exec_encode_of_fits hb hclen.ge, State.startEncode_fsm s⟩
  · have hlong : s.clen < s.nbits := by unfold State.nbits; omega
    exact ⟨_, exec_encode_of_not_fits hb hlong, State.status_raise_capacityError _⟩

/-! ### Lengths within `LENW` -/

/-- What is at most a number that fits in `LENW` bits fits too. -/
theorem fitsLenW_of_le {w : Config.LenW} {m n : Nat} (hn : Config.fitsLenW w n) (h : m ≤ n) :
    Config.fitsLenW w m := by
  cases w with
  | none => trivial
  | some w => exact Nat.lt_of_le_of_lt h hn

namespace State

/-- Lengths and indices that do not grow stay within `LENW`, whatever else changes. -/
theorem FitsLenW.of_le {w : Config.LenW} {s t : State} (h : s.FitsLenW w)
    (hidx : t.idx ≤ s.idx) (hpidx : t.pidx ≤ s.pidx) (hplen : t.plen ≤ s.plen)
    (hclen : t.clen ≤ s.clen) (holen : t.olen ≤ s.olen) (hscript : t.script = s.script) :
    t.FitsLenW w where
  idx := fitsLenW_of_le h.idx hidx
  pidx := fitsLenW_of_le h.pidx hpidx
  plen := fitsLenW_of_le h.plen hplen
  clen := fitsLenW_of_le h.clen hclen
  olen := fitsLenW_of_le h.olen holen
  script := hscript ▸ h.script

/-! ### The core's step -/

/-- An encoder beat: `IDX` and `PIDX` stay within `CLEN`, since the message fits (R44 d). -/
theorem FitsLenW.encBeat {w : Config.LenW} {s : State} (h : s.FitsLenW w) (he : s.EncodeInv)
    (hi : s.idx < s.nbits) : s.encBeat.FitsLenW w := by
  obtain ⟨hfits, hidx, hpidx, -, -⟩ := he.encBeat hi
  simp only [encBeat_nbits, encBeat_clen] at hfits hidx
  have hidx' : s.encBeat.idx ≤ s.clen := hidx.trans hfits
  have hpidx' : s.encBeat.pidx ≤ s.clen := by omega
  exact {
    idx := fitsLenW_of_le h.clen hidx'
    pidx := fitsLenW_of_le h.clen hpidx'
    plen := by simpa using h.plen
    clen := by simpa using h.clen
    olen := by simpa using h.olen
    script := by simpa using h.script }

/-- `OLEN` is `IDX` div 8 and `IDX` is below `CLEN`, so one more byte in `O` is still within
`CLEN` (R44 e). -/
theorem DecodeInv.decBeat_olen_le {s : State} (h : s.DecodeInv) (hi : s.idx < s.clen) :
    s.decBeat.olen ≤ s.clen := by
  have holen := h.olen
  rw [decBeat_olen]
  split <;> omega

/-- A decoder beat: `IDX` and `OLEN` stay within `CLEN` (R44 e). -/
theorem FitsLenW.decBeat {w : Config.LenW} {s : State} (h : s.FitsLenW w) (hd : s.DecodeInv)
    (hi : s.idx < s.clen) : s.decBeat.FitsLenW w where
  idx := fitsLenW_of_le h.clen (by simpa using hi)
  pidx := by simpa using h.pidx
  plen := by simpa using h.plen
  clen := by simpa using h.clen
  olen := fitsLenW_of_le h.clen (hd.decBeat_olen_le hi)
  script := by simpa using h.script

theorem FitsLenW.setFsm {w : Config.LenW} {s : State} (h : s.FitsLenW w) (f : Fsm) :
    (s.setFsm f).FitsLenW w := h.of_le le_rfl le_rfl le_rfl le_rfl le_rfl rfl

/-- A core step from a state that meets the invariant. -/
theorem FitsLenW.coreStep {w : Config.LenW} {s : State} (h : s.FitsLenW w) (hinv : s.Inv) :
    s.coreStep.FitsLenW w := by
  rcases coreStep_cases s with ⟨-, e⟩ | ⟨hf, hi, e⟩ | ⟨-, -, e⟩ | ⟨hf, hi, e⟩ | ⟨-, -, e⟩ <;> rw [e]
  · exact h
  · exact h.encBeat (hinv.encoding hf) hi
  · exact h.setFsm _
  · exact h.decBeat (hinv.decoding hf) hi
  · exact h.setFsm _

/-! ### The host's actions -/

/-- A new script of actions that write only lengths that fit. -/
theorem FitsLenW.setScript {w : Config.LenW} {s : State} (h : s.FitsLenW w)
    {as : List HostAction} (has : ∀ a ∈ as, a.FitsLenW w) : (s.setScript as).FitsLenW w where
  idx := h.idx
  pidx := h.pidx
  plen := h.plen
  clen := h.clen
  olen := h.olen
  script := has

/-- The host's next action writes only a length that fits, and so do the ones after it. -/
theorem FitsLenW.script_cons {w : Config.LenW} {s : State} (h : s.FitsLenW w) {a : HostAction}
    {rest : List HostAction} (hs : s.script = a :: rest) :
    a.FitsLenW w ∧ ∀ b ∈ rest, b.FitsLenW w := by
  simpa [hs] using h.script

theorem FitsLenW.setPlen {w : Config.LenW} {s : State} (h : s.FitsLenW w) {n : Nat}
    (hn : Config.fitsLenW w n) : (s.setPlen n).FitsLenW w := { h with plen := hn }

theorem FitsLenW.setClen {w : Config.LenW} {s : State} (h : s.FitsLenW w) {n : Nat}
    (hn : Config.fitsLenW w n) : (s.setClen n).FitsLenW w := { h with clen := hn }

/-- Reset sets every length and index to 0 (R43). -/
theorem FitsLenW.resetInput {w : Config.LenW} {s : State} (h : s.FitsLenW w) :
    s.resetInput.FitsLenW w :=
  h.of_le (Nat.zero_le _) (Nat.zero_le _) (Nat.zero_le _) (Nat.zero_le _) (Nat.zero_le _) rfl

theorem FitsLenW.raise {w : Config.LenW} {s : State} (h : s.FitsLenW w) (f : CoreFault) :
    (s.raise f).FitsLenW w := h.of_le le_rfl le_rfl le_rfl le_rfl le_rfl rfl

/-- A command keeps the lengths or sets them to 0 (R172, R176, R206). -/
theorem FitsLenW.commandEffect {w : Config.LenW} {s : State} (h : s.FitsLenW w) (c : Byte) :
    (s.commandEffect c).FitsLenW w := by
  unfold State.commandEffect
  split
  · exact h
  · unfold State.acceptEncode
    split
    · exact h.of_le (Nat.zero_le _) (Nat.zero_le _) le_rfl le_rfl le_rfl rfl
    · exact h.of_le le_rfl le_rfl le_rfl le_rfl le_rfl rfl
  · exact h.of_le (Nat.zero_le _) le_rfl le_rfl le_rfl (Nat.zero_le _) rfl
  · exact h.raise _

theorem FitsLenW.writeBytes {w : Config.LenW} {s : State} (h : s.FitsLenW w) (sp : Space)
    (i : Nat) (bs : List Byte) : (s.writeBytes sp i bs).FitsLenW w := by
  obtain ⟨p, c, o, e⟩ := writeBytes_fields s sp i bs
  rw [e]
  exact h.of_le le_rfl le_rfl le_rfl le_rfl le_rfl rfl

end State

/-- A `Move` keeps the lengths within `LENW`. -/
theorem Move.fitsLenW {w : Config.LenW} {s t : State} (hm : Move s t) (hinv : s.Inv)
    (h : s.FitsLenW w) : t.FitsLenW w := by
  have hrest {a rest} (hs : s.script = a :: rest) : (s.setScript rest).FitsLenW w :=
    h.setScript (h.script_cons hs).2
  cases hm with
  | core _ => exact h.coreStep hinv
  | run n rest hs =>
    refine (h.coreStep hinv).setScript fun a ha => ?_
    rcases List.mem_cons.mp ha with rfl | ha
    · trivial
    · exact (h.script_cons hs).2 a ha
  | skip a rest hs => exact hrest hs
  | reset a rest hs _ => exact (hrest hs).resetInput
  | command c rest hs _ => exact (hrest hs).commandEffect c
  | plen n rest hs _ => exact (hrest hs).setPlen (h.script_cons hs).1
  | clen n rest hs _ => exact (hrest hs).setClen (h.script_cons hs).1
  | observe a x rest hs _ => exact (hrest hs).of_le le_rfl le_rfl le_rfl le_rfl le_rfl rfl
  | load sp i bs rest hs _ => exact (hrest hs).writeBytes sp i bs

/-- Settles O58, by cases on the move: the running operation's invariant bounds `IDX`, `PIDX`
and `OLEN` by `CLEN`, and every other move keeps a length, sets it to 0, or writes one the
host's script holds. -/
theorem stepKeepsLengthsInLenW : Obligations.StepKeepsLengthsInLenW := by
  unfold Obligations.StepKeepsLengthsInLenW
  intro w s t hinv h hstep
  exact (step_move hstep).fitsLenW hinv h

end Sys2Proof.Machine

/-! The registers, the status, the host's access to the memories, the reset state and the
invariant (spec 10_state.md R30 to R44, 30_encoding.md R92): the model's own lemmas of each,
then the statements of that part. -/

namespace Sys2Proof.Machine

namespace State

/-! ### The invariant where no operation runs, and where one does -/

/-- The invariant of a core that is not busy: the clauses of a running operation fall away. -/
theorem inv_of_not_busy {s : State} (hb : s.busy = false)
    (errCause : s.err = true ↔ s.cause ≠ 0) (cause : s.cause ≠ 3)
    (errEnds : s.err = true → s.fsm = .finished)
    (termEnds : s.termFound = true → s.fsm = .finished ∧ s.err = false)
    (idle : s.fsm = .idle → s.idx = 0 ∧ s.pidx = 0 ∧ s.pbit = 0 ∧ s.sr = 0x00 ∧ s.acc = 0x00 ∧
      s.bitpos = 0 ∧ s.olen = 0)
    (memory : s.MemoryWf) : s.Inv where
  errCause := errCause
  cause := cause
  errEnds := errEnds
  termEnds := termEnds
  idle := idle
  encoding hf := by simp [(busy_iff s).mpr (.inl hf)] at hb
  decoding hf := by simp [(busy_iff s).mpr (.inr hf)] at hb
  memory := memory

/-- The invariant of a running operation: no flag is set, and the operation has its own. -/
theorem inv_of_running {s : State} (hrun : s.busy = true)
    (hflags : s.err = false ∧ s.cause = 0 ∧ s.termFound = false)
    (encoding : s.fsm = .encoding → s.EncodeInv) (decoding : s.fsm = .accumulating → s.DecodeInv)
    (memory : s.MemoryWf) : s.Inv := by
  obtain ⟨herr, hcause, hterm⟩ := hflags
  exact {
    errCause := by simp [herr, hcause]
    cause := by simp [hcause]
    errEnds := by simp [herr]
    termEnds := by simp [hterm]
    idle := fun hf => by simp [(not_busy_iff s).mpr (.inl hf)] at hrun
    encoding := encoding
    decoding := decoding
    memory := memory }

/-- Reset gives every register its value of R43, whatever the state was; only the memories
have to be canonical before. -/
theorem MemoryWf.resetInput_inv {s : State} (h : s.MemoryWf) : s.resetInput.Inv := by
  apply inv_of_not_busy (by rfl)
  case memory => exact h.congr rfl rfl rfl
  all_goals simp [resetInput, State.reset]

/-- A fault's entry sets the three flags and `FSM` together, whatever they were (R206). -/
theorem MemoryWf.raise_inv {s : State} (h : s.MemoryWf) (f : CoreFault) : (s.raise f).Inv := by
  apply inv_of_not_busy (by rfl)
  case memory => exact h.congr rfl rfl rfl
  all_goals cases f <;> simp [raise, CoreFault.code]

/-! ### The flags under the invariant -/

/-- In `IDLE` and while an operation runs no flag is set (R35, R36, R37). -/
theorem Inv.flags_of_not_finished {s : State} (h : s.Inv) (hf : s.fsm ≠ .finished) :
    s.err = false ∧ s.cause = 0 ∧ s.termFound = false := by
  have herr : s.err = false := by simpa using mt h.errEnds hf
  have hcause : s.cause = 0 := by simpa [herr] using h.errCause
  have hterm : s.termFound = false := by simpa using mt (fun ht => (h.termEnds ht).1) hf
  exact ⟨herr, hcause, hterm⟩

/-- The ways the flags can stand: all clear, the terminator found, or one of the two faults. -/
theorem Inv.flags_cases {s : State} (h : s.Inv) :
    (s.err = false ∧ s.cause = 0 ∧ s.termFound = false) ∨
    (s.fsm = .finished ∧ s.err = false ∧ s.cause = 0 ∧ s.termFound = true) ∨
    (s.fsm = .finished ∧ s.err = true ∧ (s.cause = 1 ∨ s.cause = 2) ∧ s.termFound = false) := by
  cases ht : s.termFound with
  | true =>
    obtain ⟨hf, he⟩ := h.termEnds ht
    have hc : s.cause = 0 := by simpa [he] using h.errCause
    exact .inr (.inl ⟨hf, he, hc, rfl⟩)
  | false =>
    cases he : s.err with
    | false => exact .inl ⟨rfl, by simpa [he] using h.errCause, rfl⟩
    | true =>
      have hc : s.cause = 1 ∨ s.cause = 2 := by
        have h0 := h.errCause.mp he
        have h3 := h.cause
        generalize s.cause = c at h0 h3 ⊢
        revert c
        decide
      exact .inr (.inr ⟨h.errEnds he, rfl, hc, rfl⟩)

/-! ### The core's step keeps the invariant -/

/-- The end of an operation: `FINISHED` allows every flag and asks nothing of the datapath. -/
theorem Inv.setFsm_finished {s : State} (h : s.Inv) : (s.setFsm .finished).Inv :=
  inv_of_not_busy (by rfl) h.errCause h.cause (fun _ => rfl)
    (fun ht => ⟨rfl, (h.termEnds ht).2⟩) (fun hf => by cases hf) (h.memory.congr rfl rfl rfl)

theorem Inv.encBeat {s : State} (h : s.Inv) (hf : s.fsm = .encoding) (hi : s.idx < s.nbits) :
    s.encBeat.Inv :=
  have hfsm : s.encBeat.fsm = .encoding := by simp [hf]
  inv_of_running ((busy_iff _).mpr (.inl hfsm))
    (by simpa using h.flags_of_not_finished (by simp [hf]))
    (fun _ => (h.encoding hf).encBeat hi) (by simp [hf]) h.memory.encBeat

/-- A decoder beat ends the operation with `TERM` set, or it goes on with its own invariant. -/
theorem Inv.decBeat {s : State} (h : s.Inv) (hf : s.fsm = .accumulating) (hi : s.idx < s.clen) :
    s.decBeat.Inv := by
  obtain ⟨herr, hcause, hterm⟩ := h.flags_of_not_finished (by simp [hf])
  cases hc : s.completesTerm with
  | true =>
    have hfsm : s.decBeat.fsm = .finished := by simp [decBeat_fsm, hc]
    exact inv_of_not_busy ((not_busy_iff _).mpr (.inr hfsm)) (by simp [herr, hcause])
      (by simp [hcause]) (by simp [herr]) (by simp [hfsm, herr]) (by simp [hfsm])
      h.memory.decBeat
  | false =>
    have hfsm : s.decBeat.fsm = .accumulating := by simp [decBeat_fsm, hc, hf]
    exact inv_of_running ((busy_iff _).mpr (.inr hfsm))
      (by simp [decBeat_termFound, hc, herr, hcause, hterm]) (by simp [hfsm])
      (fun _ => (h.decoding hf).decBeat hi hc) h.memory.decBeat

theorem Inv.coreStep {s : State} (h : s.Inv) : s.coreStep.Inv := by
  rcases coreStep_cases s with ⟨-, e⟩ | ⟨hf, hi, e⟩ | ⟨-, -, e⟩ | ⟨hf, hi, e⟩ | ⟨-, -, e⟩ <;> rw [e]
  · exact h
  · exact h.encBeat hf hi
  · exact h.setFsm_finished
  · exact h.decBeat hf hi
  · exact h.setFsm_finished

/-! ### The host's actions keep the invariant -/

/-- The invariant says nothing of the host's script and of its record. -/
theorem Inv.withHost {s : State} (h : s.Inv) (as : List HostAction) (xs : List Seen) :
    ({ s with script := as, seen := xs } : State).Inv :=
  { h with
    encoding := fun hf => { h.encoding hf with }
    decoding := fun hf => { h.decoding hf with }
    memory := { h.memory with } }

theorem Inv.setScript {s : State} (h : s.Inv) (as : List HostAction) : (s.setScript as).Inv :=
  h.withHost as s.seen

theorem Inv.observe {s : State} (h : s.Inv) (x : Seen) : (s.observe x).Inv :=
  h.withHost s.script (s.seen ++ [x])

/-- What a host may write while the core is not busy (R41): the two lengths, and the bytes of
the spaces as long as these stay canonical. -/
theorem Inv.hostData_of_not_busy {s : State} (h : s.Inv) (hb : s.busy = false) (m n : Nat)
    {p c o : Memory} (hp : p.wf) (hc : c.wf) (ho : o.wf) :
    ({ s with plen := m, clen := n, memP := p, memC := c, memO := o } : State).Inv :=
  inv_of_not_busy hb h.errCause h.cause h.errEnds h.termEnds h.idle ⟨hp, hc, ho⟩

theorem Inv.writeBytes {s : State} (h : s.Inv) (hb : s.busy = false) (sp : Space) (a : Nat)
    (bs : List Byte) : (s.writeBytes sp a bs).Inv := by
  have hm := h.memory.writeBytes sp a bs
  obtain ⟨p, c, o, e⟩ := writeBytes_fields s sp a bs
  rw [e] at hm ⊢
  exact h.hostData_of_not_busy hb s.plen s.clen hm.p hm.c hm.o

/-- The start of an ENCODE clears the flags and meets the encode invariant (R172). -/
theorem MemoryWf.startEncode_inv {s : State} (h : s.MemoryWf) (hfits : s.nbits ≤ s.clen) :
    s.startEncode.Inv :=
  inv_of_running (by rfl) ⟨rfl, rfl, rfl⟩ (fun _ => startEncode_encodeInv hfits) (by simp)
    (h.congr rfl rfl rfl)

@[simp] theorem acceptDecode_fsm (s : State) : s.acceptDecode.fsm = .accumulating := rfl

/-- The acceptance of a DECODE clears the flags and meets the decode invariant (R176). -/
theorem MemoryWf.acceptDecode_inv {s : State} (h : s.MemoryWf) : s.acceptDecode.Inv :=
  inv_of_running (by rfl) ⟨rfl, rfl, rfl⟩ (by simp) (fun _ => s.acceptDecode_decodeInv)
    (h.congr rfl rfl rfl)

/-- Every command byte but `NOP`'s puts the flags and the datapath in order itself. -/
theorem Inv.commandEffect {s : State} (h : s.Inv) (w : Byte) : (s.commandEffect w).Inv := by
  unfold State.commandEffect
  split
  · exact h
  · unfold State.acceptEncode
    split
    · next hfits => exact h.memory.startEncode_inv ((fits_iff s).mp hfits)
    · exact (h.memory.congr (t := s.clearFlags) rfl rfl rfl).raise_inv _
  · exact h.memory.acceptDecode_inv
  · exact h.memory.raise_inv _

end State

/-! ### The invariant at reset and along every step -/

/-- Settles O55: the reset state is the reset input's result on its own empty memories. -/
theorem resetMeetsInvariant : Obligations.ResetMeetsInvariant :=
  State.reset_memoryWf.resetInput_inv

/-- A `Move` keeps the invariant. -/
theorem Move.inv {s t : State} (hm : Move s t) (h : s.Inv) : t.Inv := by
  cases hm with
  | core _ => exact h.coreStep
  | run n rest _ => exact h.coreStep.setScript _
  | skip a rest _ => exact h.setScript rest
  | reset a rest _ _ => exact (h.setScript rest).memory.resetInput_inv
  | command w rest _ _ => exact (h.setScript rest).commandEffect w
  | plen n rest _ hb =>
    have hm := h.memory
    exact (h.setScript rest).hostData_of_not_busy hb n s.clen hm.p hm.c hm.o
  | clen n rest _ hb =>
    have hm := h.memory
    exact (h.setScript rest).hostData_of_not_busy hb s.plen n hm.p hm.c hm.o
  | observe a x rest _ _ => exact (h.setScript rest).observe x
  | load sp i bs rest _ hb =>
    rcases hb with hb | rfl
    · exact (h.setScript rest).writeBytes hb sp i bs
    · exact h.setScript rest

/-- Settles O56, by cases on the move: a beat keeps its operation's invariant, a command and a
reset establish theirs, and the host writes nothing an operation in progress depends on. -/
theorem stepKeepsInvariant : Obligations.StepKeepsInvariant := by
  unfold Obligations.StepKeepsInvariant
  exact fun s t h hstep => (step_move hstep).inv h

/-! ### `STATUS` -/

/-- Settles O42: `FSM` alone gives the four values without a flag, and each flag the invariant
allows stands in `FINISHED` only. -/
theorem statusLegalValues : Obligations.StatusLegalValues := by
  unfold Obligations.StatusLegalValues
  intro s h
  rcases h.flags_cases with ⟨he, hc, ht⟩ | ⟨hf, he, hc, ht⟩ | ⟨hf, he, hc | hc, ht⟩
  · cases hf : s.fsm <;> simp only [State.status, hf, he, hc, ht] <;> decide
  · simp only [State.status, hf, he, hc, ht]; decide
  · simp only [State.status, hf, he, hc, ht]; decide
  · simp only [State.status, hf, he, hc, ht]; decide

/-- Where each part stands in the byte of `STATUS` (R32). -/
theorem statusByte_fields (f : Fsm) (e t : Bool) (c : BitVec 2) :
    bitOf (statusByte f e t c) 0 = f.busy ∧ bitOf (statusByte f e t c) 1 = f.fin ∧
    bitOf (statusByte f e t c) 2 = e ∧ bitOf (statusByte f e t c) 3 = t ∧
    (statusByte f e t c).extractLsb' 4 2 = c ∧ (statusByte f e t c).extractLsb' 6 2 = 0 := by
  generalize hb : f.busy = b
  generalize hn : f.fin = n
  simp only [statusByte, hb, hn]
  clear hb hn f
  revert b n e t c
  decide

theorem Fsm.fin_iff (f : Fsm) : f.fin = true ↔ f = .finished := by
  cases f <;> simp [Fsm.fin]

/-- Settles O41: the places of the fields in the byte, and what `BUSY` and `FIN` are of
`FSM`. -/
theorem statusLayout : Obligations.StatusLayout := by
  unfold Obligations.StatusLayout
  intro s
  obtain ⟨hbusy, hfin, herr, hterm, hcause, hzero⟩ :=
    statusByte_fields s.fsm s.err s.termFound s.cause
  refine ⟨?_, ?_, herr, hterm, hcause, hzero⟩
  · exact (Bool.eq_iff_iff.mp hbusy).trans s.busy_iff
  · exact (Bool.eq_iff_iff.mp hfin).trans s.fsm.fin_iff

/-! ### The register port -/

theorem HostReg.ofNumber_number (r : HostReg) : HostReg.ofNumber r.number = r := by
  cases r with
  | absent k => rw [HostReg.number, Nat.add_comm, HostReg.ofNumber]
  | _ => rfl

theorem HostReg.number_ofNumber (n : Nat) : (HostReg.ofNumber n).number = n := by
  match n with
  | 0 | 1 | 2 | 3 | 4 => rfl
  | k + 5 => exact Nat.add_comm 5 k

/-- The value of a register by its number (R30). -/
theorem State.readReg_ofNumber (s : State) (n : Nat) :
    s.readReg (HostReg.ofNumber n) =
      if n = 1 then s.status.toNat else if n = 2 then s.plen else if n = 3 then s.clen
      else if n = 4 then s.olen else 0 := by
  match n with
  | 0 | 1 | 2 | 3 | 4 => rfl
  | k + 5 => simp [HostReg.ofNumber, State.readReg]

/-- Settles O43: a read notes the register's value, and three kinds of write have no effect. -/
theorem registerPort : Obligations.RegisterPort := by
  unfold Obligations.RegisterPort
  refine ⟨HostReg.ofNumber_number, HostReg.number_ofNumber, fun s rest => ⟨fun n hs => ?_, ?_⟩⟩
  · rw [step_of_cons hs, ← s.readReg_ofNumber n]
    rfl
  · rintro w hs (⟨v, rfl⟩ | ⟨n, rfl⟩ | ⟨k, n, rfl⟩) <;> exact step_of_cons hs

/-- A busy core ignores every write on the register port (R41, R170). -/
theorem step_write_of_busy {s : State} {w : RegWrite} {rest : List HostAction}
    (hs : s.script = .write w :: rest) (hb : s.busy = true) :
    step s = .next (s.setScript rest) := by
  rw [step_of_cons hs]
  cases w <;> simp [State.hostStep, State.writeReg, issue_eq, hb]

theorem step_write_plen_of_not_busy {s : State} {n : Nat} {rest : List HostAction}
    (hs : s.script = .write (.plen n) :: rest) (hb : s.busy = false) :
    step s = .next ((s.setScript rest).setPlen n) := by
  rw [step_of_cons hs]
  simp [State.hostStep, State.writeReg, hb]

theorem step_write_clen_of_not_busy {s : State} {n : Nat} {rest : List HostAction}
    (hs : s.script = .write (.clen n) :: rest) (hb : s.busy = false) :
    step s = .next ((s.setScript rest).setClen n) := by
  rw [step_of_cons hs]
  simp [State.hostStep, State.writeReg, hb]

/-- Settles O44: the write of a length register is guarded by `BUSY`. -/
theorem lengthRegisterWrites : Obligations.LengthRegisterWrites := by
  unfold Obligations.LengthRegisterWrites
  exact fun s rest n =>
    ⟨fun hs => ⟨step_write_plen_of_not_busy hs, step_write_of_busy hs⟩,
      fun hs => ⟨step_write_clen_of_not_busy hs, step_write_of_busy hs⟩⟩

/-! ### The host's access to the memories -/

theorem State.loadBytes_of_not_busy {s : State} (hb : s.busy = false) (sp : Space) (a : Nat)
    (bs : List Byte) : s.loadBytes sp a bs = .next (s.writeBytes sp a bs) := by
  simp [State.loadBytes, hb]

theorem State.dumpBytes_of_not_busy {s : State} (hb : s.busy = false) (sp : Space) (a b : Nat) :
    s.dumpBytes sp a b = .next (s.observe (.bytes sp a (s.readRange sp a b))) := by
  simp [State.dumpBytes, hb]

theorem State.loadBytes_of_busy {s : State} (hb : s.busy = true) (sp : Space) (a : Nat)
    {bs : List Byte} (hbs : bs ≠ []) : s.loadBytes sp a bs = .refused (.hostMemoryWhileBusy sp) := by
  simp [State.loadBytes, hb, hbs]

theorem State.dumpBytes_of_busy {s : State} (hb : s.busy = true) (sp : Space) {a b : Nat}
    (hab : a < b) : s.dumpBytes sp a b = .refused (.hostMemoryWhileBusy sp) := by
  simp [State.dumpBytes, hb, hab]

/-- A load changes nothing outside the memories. -/
theorem State.writeBytes_frame (s : State) (sp : Space) (a : Nat) (bs : List Byte) :
    { s.writeBytes sp a bs with memP := s.memP, memC := s.memC, memO := s.memO } = s := by
  obtain ⟨p, c, o, e⟩ := s.writeBytes_fields sp a bs
  rw [e]

/-- Settles O46: a load is `writeBytes` and a dump notes `readRange`. -/
theorem hostMemoryAccess : Obligations.HostMemoryAccess := by
  unfold Obligations.HostMemoryAccess
  refine fun s sp a rest hb => ⟨fun bs hs => ?_, fun b hs => ?_⟩
  · have hstep : step s = .next ((s.setScript rest).writeBytes sp a bs) :=
      (step_of_cons hs).trans (State.loadBytes_of_not_busy (s := s.setScript rest) hb sp a bs)
    refine ⟨_, hstep, fun k b hk => ?_, fun sp' j hj => ?_, State.writeBytes_frame _ sp a bs⟩
    · obtain ⟨hlt, -⟩ := List.getElem?_eq_some_iff.mp hk
      rw [State.writeBytes_readMem, if_pos ⟨rfl, by omega, by omega⟩, Nat.add_sub_cancel_left,
        List.getD_eq_getElem?_getD, hk, Option.getD_some]
    · rw [State.writeBytes_readMem, if_neg hj, State.setScript_readMem]
  · have hstep : step s =
        .next ((s.setScript rest).observe (.bytes sp a (s.readRange sp a b))) := by
      rw [step_of_cons hs, ← s.setScript_readRange rest]
      exact State.dumpBytes_of_not_busy (s := s.setScript rest) hb sp a b
    refine ⟨s.readRange sp a b, s.readRange_length sp a b, fun k hk => ?_, hstep⟩
    have hlt : k < (s.readRange sp a b).length := by rw [State.readRange_length]; omega
    rw [List.getElem?_eq_getElem hlt, State.readRange_getElem]

/-- Settles O47: the guard of a load and of a dump that names at least one byte. -/
theorem busyMemoryAccessRefused : Obligations.BusyMemoryAccessRefused := by
  unfold Obligations.BusyMemoryAccessRefused
  refine fun s sp a rest hb => ⟨fun bs hbs hs => ?_, fun b hab hs => ?_⟩
  · exact (step_of_cons hs).trans (State.loadBytes_of_busy (s := s.setScript rest) hb sp a hbs)
  · exact (step_of_cons hs).trans (State.dumpBytes_of_busy (s := s.setScript rest) hb sp hab)

/-! ### The reset state -/

/-- No byte has been written at reset, so each reads as the free value of its index (R232). -/
theorem State.reset_readMem (sp : Space) (i : Nat) :
    State.reset.readMem sp i = Config.powerUpByte sp i := by cases sp <;> rfl

/-- Settles O50: the registers are the reset state's own fields, and no byte is written. -/
theorem resetValues : Obligations.ResetValues := by
  unfold Obligations.ResetValues
  exact ⟨rfl, rfl, rfl, rfl, rfl, rfl, rfl, rfl, rfl, rfl, rfl, rfl, rfl, rfl, rfl,
    State.reset_readMem⟩

end Sys2Proof.Machine

/-! The three byte spaces (spec 20_memory.md R50 to R63): the canonical form along every step,
the effect of one memory write, and what a command at its issue and a step of the core leave
unchanged. -/

namespace Sys2Proof.Machine

namespace State

/-! ### What an accepted command changes -/

/-- The acceptance of an ENCODE, started or refused for capacity, rewrites at most the
sequencing, the flags and the packer's registers (R172). -/
theorem acceptEncode_fields (s : State) :
    ∃ f n m b r e c, s.acceptEncode = { s with
      fsm := f, idx := n, pidx := m, pbit := b, sr := r, err := e, cause := c,
      termFound := false } := by
  unfold acceptEncode
  split
  · exact ⟨_, _, _, _, _, _, _, rfl⟩
  · exact ⟨_, _, _, _, _, _, _, rfl⟩

@[simp] theorem acceptEncode_readMem (s : State) (sp : Space) (j : Nat) :
    s.acceptEncode.readMem sp j = s.readMem sp j := by
  obtain ⟨f, n, m, b, r, e, c, hs⟩ := s.acceptEncode_fields
  rw [hs]
  cases sp <;> rfl

/-! ### The canonical form of the memories -/

theorem MemoryWf.commandEffect {s : State} (h : s.MemoryWf) (w : Byte) :
    (s.commandEffect w).MemoryWf := by
  unfold State.commandEffect
  split
  · exact h
  · obtain ⟨f, n, m, b, r, e, c, hs⟩ := s.acceptEncode_fields
    rw [hs]
    exact h.congr rfl rfl rfl
  · exact h.congr rfl rfl rfl
  · exact h.congr rfl rfl rfl

end State

/-- A `Move` keeps the canonical form: it writes through `Memory.store` or leaves the memories
alone. -/
theorem Move.memoryWf {s t : State} (hm : Move s t) (h : s.MemoryWf) : t.MemoryWf := by
  have hrest (as : List HostAction) : (s.setScript as).MemoryWf := h.congr rfl rfl rfl
  cases hm with
  | core _ => exact h.coreStep
  | run n rest _ => exact h.coreStep.congr rfl rfl rfl
  | skip a rest _ => exact hrest rest
  | reset a rest _ _ => exact h.congr rfl rfl rfl
  | command w rest _ _ => exact (hrest rest).commandEffect w
  | plen n rest _ _ => exact h.congr rfl rfl rfl
  | clen n rest _ _ => exact h.congr rfl rfl rfl
  | observe a x rest _ _ => exact h.congr rfl rfl rfl
  | load sp i bs rest _ _ => exact (hrest rest).writeBytes sp i bs

/-- Settles O57, by cases on the move: a beat and a load write by `Memory.store`, which keeps
the indices rising. -/
theorem stepKeepsMemoryCanonical : Obligations.StepKeepsMemoryCanonical := by
  unfold Obligations.StepKeepsMemoryCanonical
  exact fun s t h hstep => (step_move hstep).memoryWf h

/-! ### One memory write -/

/-- Settles O45: the read after a write by its space and index, and the frame of a load of the
single byte. -/
theorem memoryWriteThenRead : Obligations.MemoryWriteThenRead := by
  unfold Obligations.MemoryWriteThenRead
  refine fun s sp sp' i j v =>
    ⟨s.writeMem_readMem_same sp i v, fun hne => ?_, s.writeBytes_frame sp i [v]⟩
  rw [State.writeMem_readMem, if_neg (by tauto)]

/-! ### The frame of a command at its issue -/

/-- What a command's effect under the busy guard answers (R170). -/
theorem unlessBusy_cases {s t : State} {effect : State → State}
    (h : s.unlessBusy effect = .next t) : t = s ∨ (s.busy = false ∧ t = effect s) := by
  cases hb : s.busy
  · exact .inr ⟨rfl, by simpa [State.unlessBusy, hb] using h.symm⟩
  · exact .inl (by simpa [State.unlessBusy, hb] using h.symm)

/-- What a command answers: a changed state only where an ENCODE or a DECODE reaches a core
that is not busy (R170, R171). -/
theorem exec_cases {i : Instr} {s t : State} (h : exec i s = .next t) :
    t = s ∨ (s.busy = false ∧ i = .encode ∧ t = s.acceptEncode) ∨
      (s.busy = false ∧ i = .decode ∧ t = s.acceptDecode) := by
  cases i with
  | nop => exact .inl ((unlessBusy_cases (effect := fun u => u) h).elim id And.right)
  | encode =>
    rcases unlessBusy_cases (effect := State.acceptEncode) h with ht | ⟨hb, ht⟩
    · exact .inl ht
    · exact .inr (.inl ⟨hb, rfl, ht⟩)
  | decode =>
    rcases unlessBusy_cases (effect := State.acceptDecode) h with ht | ⟨hb, ht⟩
    · exact .inl ht
    · exact .inr (.inr ⟨hb, rfl, ht⟩)

/-- Settles O15, by cases on what the command answers: the acceptance of an ENCODE or a DECODE
rewrites only the sequencing, the flags and the registers of its own unit. -/
theorem commandFrame : Obligations.CommandFrame := by
  unfold Obligations.CommandFrame
  intro i s t h
  rcases exec_cases h with rfl | ⟨hb, rfl, rfl⟩ | ⟨hb, rfl, rfl⟩
  · simp
  · obtain ⟨f, n, m, b, r, e, c, hs⟩ := s.acceptEncode_fields
    refine ⟨s.acceptEncode_readMem, ?_⟩
    rw [hs]
    simp [hb]
  · simp [State.acceptDecode, State.decInit, State.clearFlags, hb]

/-! ### The frame of the core's step -/

namespace State

/-- A byte after a core step: as before, or the byte a running operation's beat writes. -/
theorem coreStep_readMem_cases (s : State) (sp : Space) (i : Nat) :
    s.coreStep.readMem sp i = s.readMem sp i ∨
    (s.fsm = .encoding ∧ sp = .c ∧ i = s.idx ∧
      s.coreStep.readMem sp i = setLsb (s.readMem sp i) s.packBit) ∨
    (s.fsm = .accumulating ∧ sp = .o ∧ i = s.olen) := by
  rcases coreStep_cases s with ⟨-, e⟩ | ⟨hf, -, e⟩ | ⟨-, -, e⟩ | ⟨hf, -, e⟩ | ⟨-, -, e⟩ <;> rw [e]
  · exact .inl rfl
  · rw [encBeat_readMem]
    split
    · next hw => obtain ⟨rfl, rfl⟩ := hw; exact .inr (.inl ⟨hf, rfl, rfl, rfl⟩)
    · exact .inl rfl
  · exact .inl (s.setFsm_readMem _ sp i)
  · rw [decBeat_readMem]
    split
    · next hw => obtain ⟨-, rfl, rfl⟩ := hw; exact .inr (.inr ⟨hf, rfl, rfl⟩)
    · exact .inl rfl
  · exact .inl (s.setFsm_readMem _ sp i)

/-- A core step leaves every byte of C alone but `C[IDX]` of a running ENCODE (R63). -/
theorem coreStep_readMem_c {s : State} {i : Nat} (h : ¬ (s.fsm = .encoding ∧ i = s.idx)) :
    s.coreStep.readMem .c i = s.readMem .c i := by
  rcases s.coreStep_readMem_cases .c i with e | ⟨hf, -, hi, -⟩ | ⟨-, hsp, -⟩
  · exact e
  · exact absurd ⟨hf, hi⟩ h
  · cases hsp

/-- A core step never touches bits 7 to 1 of a byte of C (R122). -/
theorem bitOf_coreStep_readMem_c (s : State) (i : Nat) {k : Nat} (hk : 1 ≤ k) :
    bitOf (s.coreStep.readMem .c i) k = bitOf (s.readMem .c i) k := by
  rcases s.coreStep_readMem_cases .c i with e | ⟨-, -, -, e⟩ | ⟨-, hsp, -⟩
  · rw [e]
  · rw [e, bitOf_setLsb, if_neg (by omega)]
  · cases hsp

/-- A core step leaves every byte of O alone but `O[OLEN]` of a running DECODE (R63). -/
theorem coreStep_readMem_o {s : State} {i : Nat} (h : ¬ (s.fsm = .accumulating ∧ i = s.olen)) :
    s.coreStep.readMem .o i = s.readMem .o i := by
  rcases s.coreStep_readMem_cases .o i with e | ⟨-, hsp, -⟩ | ⟨hf, -, hi⟩
  · exact e
  · cases hsp
  · exact absurd ⟨hf, hi⟩ h

/-- Only a running DECODE steps the decoder's registers and `TERM`. -/
theorem coreStep_decoder_of_ne {s : State} (h : s.fsm ≠ .accumulating) :
    s.coreStep.olen = s.olen ∧ s.coreStep.acc = s.acc ∧ s.coreStep.bitpos = s.bitpos ∧
      s.coreStep.termFound = s.termFound := by
  rcases coreStep_cases s with ⟨-, e⟩ | ⟨-, -, e⟩ | ⟨-, -, e⟩ | ⟨hf, -, -⟩ | ⟨hf, -, -⟩
  · simp [e]
  · simp [e]
  · simp [e]
  · exact absurd hf h
  · exact absurd hf h

/-- Only a running ENCODE steps the packer's registers. -/
theorem coreStep_packer_of_ne {s : State} (h : s.fsm ≠ .encoding) :
    s.coreStep.pidx = s.pidx ∧ s.coreStep.pbit = s.pbit ∧ s.coreStep.sr = s.sr := by
  rcases coreStep_cases s with ⟨-, e⟩ | ⟨hf, -, -⟩ | ⟨hf, -, -⟩ | ⟨-, -, e⟩ | ⟨-, -, e⟩
  · simp [e]
  · exact absurd hf h
  · exact absurd hf h
  · simp [e]
  · simp [e]

end State

/-- Settles O40: with nothing from the host the step is the core's, whose frame the lemmas
above give part by part. -/
theorem coreStepFrame : Obligations.CoreStepFrame := by
  unfold Obligations.CoreStepFrame
  intro s t hs hstep
  rw [step_of_nil hs] at hstep
  obtain rfl : s.coreStep = t := by simpa using hstep
  exact ⟨s.coreStep_memP, s.coreStep_plen, s.coreStep_clen, s.coreStep_err, s.coreStep_cause,
    s.coreStep_script.trans hs, s.coreStep_seen, fun _ => State.coreStep_readMem_c,
    fun i _ => s.bitOf_coreStep_readMem_c i, fun _ => State.coreStep_readMem_o,
    State.coreStep_decoder_of_ne, State.coreStep_packer_of_ne, State.coreStep_of_not_busy⟩

end Sys2Proof.Machine

/-! The statements of the command byte's encoding (spec 30_encoding.md): what the decoder
answers for each byte (R82), and that it and the byte's two fields (R80, R81) agree. -/

namespace Sys2Proof

/-- A command's byte decodes to the command (R81, R82). -/
@[simp] theorem decodeCommand_encodeCommand (i : Instr) :
    decodeCommand (encodeCommand i) = .ok i := by
  cases i <;> rfl

/-- The table's row of a command is its byte, of 8 bits (R80). -/
@[simp] theorem decodeTableWord_encodeCommand (i : Instr) :
    decodeTableWord 8 (encodeCommand i).toNat = some i := by
  simp [decodeTableWord]

/-- The bytes below 0x03 are the commands' bytes (R81). -/
theorem exists_encodeCommand_eq {w : Byte} (h : w.toNat < 3) : ∃ i, encodeCommand i = w := by
  have hw : w.toNat = 0 ∨ w.toNat = 1 ∨ w.toNat = 2 := by omega
  rcases hw with h0 | h1 | h2
  · exact ⟨.nop, BitVec.eq_of_toNat_eq h0.symm⟩
  · exact ⟨.encode, BitVec.eq_of_toNat_eq h1.symm⟩
  · exact ⟨.decode, BitVec.eq_of_toNat_eq h2.symm⟩

/-- The bytes from 0x03 on are rejected by name (R82, R84). -/
theorem decodeCommand_reserved {w : Byte} (h : 3 ≤ w.toNat) :
    decodeCommand w = .error (.reservedCommand w) := by
  have hne (b : Byte) (hb : b.toNat < 3) : w ≠ b := by
    rintro rfl
    exact absurd hb (Nat.not_lt.mpr h)
  rw [decodeCommand, if_neg (hne 0x00 (by decide)), if_neg (hne 0x01 (by decide)),
    if_neg (hne 0x02 (by decide))]

/-- A byte decodes to a command exactly when it is the command's byte. -/
theorem decodeCommand_eq_ok_iff {w : Byte} {i : Instr} :
    decodeCommand w = .ok i ↔ w = encodeCommand i := by
  constructor
  · intro hok
    rcases Nat.lt_or_ge w.toNat 3 with h | h
    · obtain ⟨j, rfl⟩ := exists_encodeCommand_eq h
      obtain rfl : j = i := by simpa using hok
      rfl
    · simp [decodeCommand_reserved h] at hok
  · rintro rfl
    exact decodeCommand_encodeCommand i

/-- Some command is decoded exactly from the bytes below 0x03. -/
theorem exists_decodeCommand_eq_ok_iff {w : Byte} :
    (∃ i, decodeCommand w = .ok i) ↔ w.toNat < 3 := by
  constructor
  · rintro ⟨i, hi⟩
    rw [decodeCommand_eq_ok_iff.mp hi]
    cases i <;> decide
  · intro h
    obtain ⟨i, rfl⟩ := exists_encodeCommand_eq h
    exact ⟨i, decodeCommand_encodeCommand i⟩

/-- A byte is rejected exactly from 0x03 on. -/
theorem decodeCommand_eq_error_iff {w : Byte} :
    decodeCommand w = .error (.reservedCommand w) ↔ 3 ≤ w.toNat := by
  refine ⟨fun he => Nat.le_of_not_lt fun h => ?_, decodeCommand_reserved⟩
  obtain ⟨i, hi⟩ := exists_decodeCommand_eq_ok_iff.mpr h
  simp [hi] at he

/-- `RSV` is the quotient of the byte by 4 (R80). -/
theorem rsvField_toNat (w : Byte) : (rsvField w).toNat = w.toNat / 4 := by
  have hw : w.toNat / 4 < 64 := by omega
  simp [rsvField, Nat.shiftRight_eq_div_pow, Nat.mod_eq_of_lt hw]

/-- `OP` is the remainder of the byte by 4 (R80). -/
theorem opField_toNat (w : Byte) : (opField w).toNat = w.toNat % 4 := by
  simp [opField]

/-- Both fields pass their check exactly on the bytes below 0x03 (R80, R81). -/
theorem fields_wellFormed_iff {w : Byte} : rsvField w = 0 ∧ opField w ≠ 3 ↔ w.toNat < 3 := by
  have hrsv : rsvField w = 0 ↔ w.toNat / 4 = 0 := by
    rw [← rsvField_toNat, ← BitVec.toNat_inj]; rfl
  have hop : opField w = 3 ↔ w.toNat % 4 = 3 := by
    rw [← opField_toNat, ← BitVec.toNat_inj]; rfl
  rw [Ne, hrsv, hop]
  omega

/-- Settles O1: a command is decoded from its own byte alone, and the bytes from 0x03 on are
rejected. -/
theorem decoderFourOutcomes : Obligations.DecoderFourOutcomes := by
  unfold Obligations.DecoderFourOutcomes
  intro w
  exact ⟨decodeCommand_eq_ok_iff, decodeCommand_eq_ok_iff, decodeCommand_eq_ok_iff,
    decodeCommand_eq_error_iff⟩

/-- Settles O2: the first three bytes and the table's row are the commands' own, the others are
0x03 or above. -/
theorem decoderReadsWrittenOutWords : Obligations.DecoderReadsWrittenOutWords := by
  unfold Obligations.DecoderReadsWrittenOutWords
  exact ⟨decodeCommand_encodeCommand .nop, decodeCommand_encodeCommand .encode,
    decodeCommand_encodeCommand .decode, decodeCommand_reserved (by decide),
    decodeCommand_reserved (by decide), decodeCommand_reserved (by decide),
    decodeTableWord_encodeCommand .encode⟩

/-- Settles O3: a byte decodes to a command exactly when it is the command's byte. -/
theorem commandByteRoundTrip : Obligations.CommandByteRoundTrip := by
  unfold Obligations.CommandByteRoundTrip
  exact ⟨decodeCommand_encodeCommand, fun _ _ h => (decodeCommand_eq_ok_iff.mp h).symm⟩

/-- Settles O4: both sides say that the byte is below 0x03. -/
theorem decoderAcceptsWellFormedBytes : Obligations.DecoderAcceptsWellFormedBytes := by
  unfold Obligations.DecoderAcceptsWellFormedBytes
  intro w
  exact exists_decodeCommand_eq_ok_iff.trans fields_wellFormed_iff.symm

end Sys2Proof

/-! The Bit Packer (spec 40_bit_packer.md R100 to R108): the length and the elements of `pack`,
which are those of the framed message, then the packer's registers along its steps. -/

namespace Sys2Proof.Machine

/-! ### `pack`, bit by bit and byte by byte -/

@[simp] theorem pack_length (p : List Byte) : (Codec.pack p).length = 8 * (p.length + 1) := by
  rw [pack_eq_frame, flatMap_msb8_length, List.length_append, List.length_singleton]

/-- Bit `8j + r` of `pack` is bit `7 - r` of byte `j` of the framed message (30_encoding.md
R88). -/
theorem pack_getElem? (p : List Byte) {j r : Nat} (hj : j < (p ++ [Config.terminator]).length)
    (hr : r < 8) :
    (Codec.pack p)[8 * j + r]? = some (bitOf (p ++ [Config.terminator])[j] (7 - r)) := by
  have hlt : 8 * j + r < ((p ++ [Config.terminator]).flatMap Codec.msb8).length := by
    rw [flatMap_msb8_length]; omega
  have hdiv : (8 * j + r) / 8 = j := by omega
  have hmod : (8 * j + r) % 8 = r := by omega
  simp only [pack_eq_frame, List.getElem?_eq_getElem hlt, flatMap_msb8_getElem, hdiv, hmod]

/-- The `j`-th group of eight bits is the bits of byte `j`. -/
theorem flatMap_msb8_take_drop (q : List Byte) (j : Nat) (hj : j < q.length) :
    ((q.flatMap Codec.msb8).drop (8 * j)).take 8 = Codec.msb8 q[j] := by
  induction q generalizing j with
  | nil => simp at hj
  | cons b q ih =>
    cases j with
    | zero => exact List.take_left' (msb8_length b)
    | succ j =>
      have hskip : 8 * (j + 1) = (Codec.msb8 b).length + 8 * j := by rw [msb8_length]; omega
      rw [List.flatMap_cons, hskip, List.drop_length_add_append]
      exact ih j (by simpa using hj)

/-- The byte spelled by bits `8j` to `8j + 7` of `pack` is byte `j` of the framed message. -/
theorem byteOf_pack (p : List Byte) {j : Nat} (hj : j < (p ++ [Config.terminator]).length) :
    Codec.byteOf (((Codec.pack p).drop (8 * j)).take 8) = (p ++ [Config.terminator])[j] := by
  rw [pack_eq_frame, flatMap_msb8_take_drop _ j hj, byteOf_msb8]

/-- The terminator 0x04 has the one bit 2, the sixth from the most significant. -/
theorem bitOf_terminator : ∀ r < 8, bitOf Config.terminator (7 - r) = decide (r = 5) := by
  decide

/-- Settles O18: eight bits for each byte of the framed message; the empty payload leaves the
terminator's. -/
theorem packLength : Obligations.PackLength := by
  unfold Obligations.PackLength
  exact ⟨pack_length, by decide⟩

/-- Settles O19: byte `j` of the framed message is the payload's, or the terminator at the
payload's length. -/
theorem packClosedForm : Obligations.PackClosedForm := by
  unfold Obligations.PackClosedForm
  intro p
  have hterm : p.length < (p ++ [Config.terminator]).length := by simp
  have hframe {j : Nat} (hj : j < p.length) : j < (p ++ [Config.terminator]).length :=
    hj.trans hterm
  refine ⟨fun j r hj hr => ?_, fun r hr => ?_, fun j hj => ?_, ?_⟩
  · rw [pack_getElem? p (hframe hj) hr, List.getElem_append_left hj]
  · rw [pack_getElem? p hterm hr, List.getElem_concat_length rfl, bitOf_terminator r hr]
  · rw [byteOf_pack p (hframe hj), List.getElem_append_left hj]
  · rw [byteOf_pack p hterm, List.getElem_concat_length rfl, Config.terminator]

/-! ### The packer's registers along its steps -/

namespace State

/-- The framed message of the state is its payload and the terminator (30_encoding.md R87). -/
theorem frame_getElem (s : State) {j : Nat} (hj : j < (s.payload ++ [Config.terminator]).length) :
    (s.payload ++ [Config.terminator])[j] = s.frameByte j := by
  simp [frameByte, List.getElem_append, payload, readRange_getElem]

/-- Bit `k` of the packed payload is the framed message's bit `k` (30_encoding.md R88). -/
theorem pack_payload_getElem? (s : State) {k : Nat} (hk : k < s.nbits) :
    (Codec.pack s.payload)[k]? = some (s.frameBit k) := by
  have hj : k / 8 < (s.payload ++ [Config.terminator]).length := by
    unfold nbits at hk
    simp only [List.length_append, payload_length, List.length_singleton]
    omega
  have hbit := pack_getElem? s.payload hj (Nat.mod_lt k (by decide))
  rwa [Nat.div_add_mod, frame_getElem] at hbit

/-- Packer steps rewrite the packer's registers alone (R107). -/
theorem packNext_iterate_frame (s : State) (k : Nat) :
    ∃ a b r, packNext^[k] s = s.setPacker a b r := by
  induction k with
  | zero => exact ⟨s.pidx, s.pbit, s.sr, rfl⟩
  | succ k ih =>
    obtain ⟨a, b, r, hk⟩ := ih
    rw [Function.iterate_succ_apply', hk]
    exact ⟨_, _, _, rfl⟩

@[simp] theorem packNext_iterate_nbits (s : State) (k : Nat) :
    (packNext^[k] s).nbits = s.nbits := by
  obtain ⟨a, b, r, hk⟩ := s.packNext_iterate_frame k
  rw [hk, setPacker_nbits]

@[simp] theorem packNext_iterate_frameByte (s : State) (k j : Nat) :
    (packNext^[k] s).frameByte j = s.frameByte j := by
  obtain ⟨a, b, r, hk⟩ := s.packNext_iterate_frame k
  rw [hk, setPacker_frameByte]

/-- The state as an ENCODE into a buffer of just the message's length holds it at bit `k`: the
packer's registers are the state's own, so `EncodeInv` of it says where the packer stands, with
no ENCODE running. -/
def atBit (s : State) (k : Nat) : State := (s.setClen s.nbits).setIdx k

/-- `PACK_INIT` puts the packer at bit 0, as the start of an ENCODE does (R106, R172). -/
theorem packInit_atBit (s : State) : (s.packInit.atBit 0).EncodeInv := by
  obtain ⟨hfits, hidx, hpidx, hpbit, hsr⟩ :=
    startEncode_encodeInv (s := s.setClen s.nbits) (Nat.le_refl s.nbits)
  exact ⟨hfits, hidx, hpidx, hpbit, hsr⟩

/-- A packer step takes the packer one bit on, as an encoder beat does (R107, R126). -/
theorem packNext_atBit {s : State} {k : Nat} (h : (s.atBit k).EncodeInv) (hk : k < s.nbits) :
    (s.packNext.atBit (k + 1)).EncodeInv := by
  obtain ⟨hfits, hidx, hpidx, hpbit, hsr⟩ := h.encBeat hk
  exact ⟨hfits, hidx, hpidx, hpbit, hsr⟩

/-- After `k` steps from `PACK_INIT` the packer stands at bit `k` (R108). -/
theorem packNext_iterate_atBit (s : State) {k : Nat} (hk : k ≤ s.nbits) :
    ((packNext^[k] s.packInit).atBit k).EncodeInv := by
  induction k with
  | zero => exact s.packInit_atBit
  | succ k ih =>
    have hlt : k < (packNext^[k] s.packInit).nbits := by
      rw [packNext_iterate_nbits]; exact hk
    rw [Function.iterate_succ_apply']
    exact packNext_atBit (ih (Nat.le_of_succ_le hk)) hlt

end State

/-- Bit 7 of a byte moved left by `r` is its bit `7 - r`. -/
theorem bitOf_shiftLeft_seven (b : Byte) {r : Nat} (hr : r < 8) :
    bitOf (b <<< r) 7 = bitOf b (7 - r) := by
  simp only [bitOf, BitVec.getLsbD_shiftLeft]
  simp [show ¬ 7 < r by omega]

/-- Settles O17: the steps from `PACK_INIT` keep the encode invariant's clauses of the packer,
so the next bit is the framed message's bit `k`, which is that of `pack`. -/
theorem packerStepsComputePack : Obligations.PackerStepsComputePack := by
  unfold Obligations.PackerStepsComputePack
  intro s k hk
  have h := s.packNext_iterate_atBit (Nat.le_of_lt hk)
  have hframe (j : Nat) : (State.packNext^[k] s.packInit).frameByte j = s.frameByte j :=
    s.packInit.packNext_iterate_frameByte k j
  have hbit : (State.packNext^[k] s.packInit).packBit = s.frameBit k := by
    rw [State.frameBit, ← hframe]; exact h.packBit
  have hpidx : (State.packNext^[k] s.packInit).pidx = k / 8 := h.pidx
  refine ⟨_, rfl, ?_, hpidx, h.pbit, fun hmid => ?_⟩
  · rw [s.pack_payload_getElem? hk, hbit]
  · have hsr : (State.packNext^[k] s.packInit).sr = s.frameByte (k / 8) <<< (k % 8) := by
      rw [← hframe, ← hpidx]
      exact h.sr.trans (if_neg hmid)
    exact ⟨hsr, by rw [hsr, bitOf_shiftLeft_seven _ (Nat.mod_lt k (by decide))]⟩

/-! ### The packer step -/

/-- Settles O16: `cur` is the model's own wire; in a running ENCODE `PIDX` and `PBIT` are the
quotient and the remainder of `IDX` by 8. -/
theorem packerStep : Obligations.PackerStep := by
  unfold Obligations.PackerStep
  refine ⟨fun s cur hcur => ?_, fun s hinv hf => ?_⟩
  · obtain rfl : cur = s.packCur := hcur
    exact ⟨rfl, rfl⟩
  · obtain ⟨-, -, hpidx, hpbit, -⟩ := hinv.encoding hf
    refine ⟨fun hlt => by omega, fun hend => ⟨by omega, ?_⟩⟩
    rw [State.pbit_eq_zero_iff]
    omega

end Sys2Proof.Machine

/-! The Channel Encoder (spec 41_channel_encoder.md R120 to R130): the substituted byte as a
value, the loop of `encode` bit by bit and group by group, and the beat of the running machine. -/

namespace Sys2Proof.Machine

/-! ### The substituted byte -/

/-- R122 as one expression: bit 0 cleared, then the new bit put there. Setting it goes
through clearing it, and the old LSB plays no part. -/
theorem setLsb_eq_or (c : Byte) (v : Bool) :
    setLsb c v = (c &&& 0xFE) ||| (if v then 0x01 else 0x00) := by
  cases v with
  | false => exact BitVec.or_zero.symm
  | true => exact (setLsb_setLsb c false true).symm

theorem toNat_mod_two (b : Byte) : b.toNat % 2 = (bitOf b 0).toNat := by
  rw [bitOf, BitVec.getLsbD, Nat.testBit_zero]
  rcases Nat.mod_two_eq_zero_or_one b.toNat with h | h <;> simp [h]

/-- The value of the rewritten byte: the old one's upper seven bits and the new bit (R122). -/
theorem setLsb_toNat (c : Byte) (v : Bool) :
    (setLsb c v).toNat = 2 * (c.toNat / 2) + v.toNat := by
  have hlow : (setLsb c v).toNat % 2 = v.toNat := by
    rw [toNat_mod_two, bitOf_setLsb, if_pos rfl]
  have hhigh : (setLsb c v).toNat / 2 = c.toNat / 2 :=
    Nat.eq_of_testBit_eq fun k => by
      rw [Nat.testBit_div_two, Nat.testBit_div_two]
      exact (bitOf_setLsb c v (k + 1)).trans (if_neg k.succ_ne_zero)
  omega

/-- Settles O21: the old byte is twice its upper seven bits plus its LSB, and only the LSB is
replaced. -/
theorem perturbationAtMostOne : Obligations.PerturbationAtMostOne := by
  unfold Obligations.PerturbationAtMostOne
  intro c v
  have hold := toNat_mod_two c
  have hnew := setLsb_toNat c v
  refine ⟨fun hsame => ?_, fun h0 h1 => ?_, fun h1 h0 => ?_⟩
  · rw [← hsame, ← lsbOf_eq, setLsb_lsbOf]
  · rw [h0, Bool.toNat_false] at hold
    rw [h1, Bool.toNat_true] at hnew
    rw [h1]
    omega
  · rw [h1, Bool.toNat_true] at hold
    rw [h0, Bool.toNat_false] at hnew
    rw [h0]
    omega

/-! ### `encode`, byte by byte -/

/-- `encode` gives a result exactly when the bits fit, and the result is its loop's (R121). -/
theorem encode_eq_some_iff {c d : List Byte} {v : List Bool} :
    Codec.encode c v = some d ↔ v.length ≤ c.length ∧ Codec.substitute c v = d := by
  simp [Codec.encode]

theorem substitute_getElem?_of_some {buf : List Byte} {v : List Bool} {i : Nat} {b : Byte}
    {x : Bool} (hb : buf[i]? = some b) (hx : v[i]? = some x) :
    (Codec.substitute buf v)[i]? = some (setLsb b x) := by
  obtain ⟨hi, rfl⟩ := List.getElem?_eq_some_iff.mp hb
  obtain ⟨hv, rfl⟩ := List.getElem?_eq_some_iff.mp hx
  rw [List.getElem?_eq_getElem (by simpa using hi), substitute_getElem, dif_pos hv]

/-- The bytes beyond the bits are left alone (R123). -/
theorem substitute_getElem?_of_le (buf : List Byte) {v : List Bool} {i : Nat} (h : v.length ≤ i) :
    (Codec.substitute buf v)[i]? = buf[i]? := by
  by_cases hi : i < buf.length
  · rw [List.getElem?_eq_getElem (by simpa using hi), substitute_getElem,
      dif_neg (Nat.not_lt.mpr h), List.getElem?_eq_getElem hi]
  · rw [List.getElem?_eq_none (by simpa using hi), List.getElem?_eq_none (Nat.not_lt.mp hi)]

/-- Settles O20: the loop's length and elements, and the guard in front of it. -/
theorem encodeClosedForm : Obligations.EncodeClosedForm := by
  unfold Obligations.EncodeClosedForm
  intro buf bits
  refine ⟨fun hfit => ⟨Codec.substitute buf bits, encode_eq_some_iff.mpr ⟨hfit, rfl⟩,
    substitute_length buf bits, fun i b v hb hv => ?_, fun i => substitute_getElem?_of_le buf⟩,
    fun hlong => if_neg (Nat.not_le.mpr hlong)⟩
  rw [substitute_getElem?_of_some hb hv, setLsb_eq_or]

/-! ### `encode`, group by group, as `decode` reads it -/

/-- The same bits again change nothing: each byte has its bit already (R129). -/
@[simp] theorem substitute_substitute (c : List Byte) (v : List Bool) :
    Codec.substitute (Codec.substitute c v) v = Codec.substitute c v := by
  induction c generalizing v with
  | nil => cases v <;> rfl
  | cons b c ih =>
    cases v with
    | nil => rfl
    | cons x v => simp [Codec.substitute, ih]

theorem substitute_append {c : List Byte} {v : List Bool} (h : v.length ≤ c.length)
    (w : List Bool) :
    Codec.substitute c (v ++ w) =
      Codec.substitute (c.take v.length) v ++ Codec.substitute (c.drop v.length) w := by
  induction v generalizing c with
  | nil => simp [Codec.substitute]
  | cons x v ih =>
    cases c with
    | nil => simp at h
    | cons b c => simp [Codec.substitute, ih (Nat.le_of_succ_le_succ h)]

/-- The LSBs of the rewritten bytes are the bits. -/
theorem map_lsbOf_substitute {c : List Byte} {v : List Bool} (h : c.length = v.length) :
    (Codec.substitute c v).map lsbOf = v := by
  induction v generalizing c with
  | nil => rw [List.length_eq_zero_iff.mp h]; rfl
  | cons x v ih =>
    cases c with
    | nil => simp at h
    | cons b c => simp [Codec.substitute, ih (Nat.succ_injective h)]

/-- One byte's eight bits at the front of the message: `decode` ends at the terminator, or
recovers the byte and goes on (R140). -/
theorem decodeLoop_substitute_msb8 {c : List Byte} (hc : 8 ≤ c.length) (b : Byte)
    (v : List Bool) (out : List Byte) (n : Nat) :
    Codec.decodeLoop (Codec.substitute c (Codec.msb8 b ++ v)) 0x00 0 out n =
      if b = Config.terminator then { bytes := out, found := true, read := n + 8 }
      else Codec.decodeLoop (Codec.substitute (c.drop 8) v) 0x00 0 (out ++ [b]) (n + 8) := by
  have hgroup : (c.take 8).length = (Codec.msb8 b).length := by simpa using hc
  rw [substitute_append (v := Codec.msb8 b) hc, msb8_length,
    decodeLoop_group _ _ _ _ ((substitute_length _ _).trans hgroup), map_lsbOf_substitute hgroup,
    byteOf_msb8]

/-- `decode` of an encoded message recovers the bytes before its first terminator, whatever the
buffer held and whatever follows (R156, R157). -/
theorem decodeLoop_substitute_frame (q r : List Byte) (hq : Config.terminator ∉ q) {c : List Byte}
    (hc : 8 * (q.length + 1) ≤ c.length) (out : List Byte) (n : Nat) :
    Codec.decodeLoop (Codec.substitute c ((q ++ Config.terminator :: r).flatMap Codec.msb8))
        0x00 0 out n =
      { bytes := out ++ q, found := true, read := n + 8 * (q.length + 1) } := by
  induction q generalizing c out n with
  | nil =>
    rw [List.nil_append, List.flatMap_cons, decodeLoop_substitute_msb8 hc, if_pos rfl,
      List.append_nil]
    rfl
  | cons b q ih =>
    obtain ⟨hb, hq'⟩ : Config.terminator ≠ b ∧ Config.terminator ∉ q := by simpa using hq
    rw [List.length_cons] at hc
    have hrest : 8 * (q.length + 1) ≤ (c.drop 8).length := by rw [List.length_drop]; omega
    have hread : n + 8 + 8 * (q.length + 1) = n + 8 * ((b :: q).length + 1) := by
      rw [List.length_cons]; omega
    rw [List.cons_append, List.flatMap_cons, decodeLoop_substitute_msb8 (by omega),
      if_neg (Ne.symm hb), ih hq' hrest, List.append_assoc, List.singleton_append, hread]

/-- The round trip of a payload without 0x04 (R157). -/
theorem decodeRun_of_encode_pack {c d q : List Byte}
    (h : Codec.encode c (Codec.pack q) = some d) (hq : Config.terminator ∉ q) :
    Codec.decodeRun d = { bytes := q, found := true, read := 8 * (q.length + 1) } := by
  obtain ⟨hfit, rfl⟩ := encode_eq_some_iff.mp h
  rw [pack_length] at hfit
  rw [Codec.decodeRun, pack_eq_frame, decodeLoop_substitute_frame q [] hq hfit,
    List.nil_append, Nat.zero_add]

/-- Settles O22: the first message leaves no trace in the bits the second one writes, and
`decode` reads no others. -/
theorem encodingTwice : Obligations.EncodingTwice := by
  unfold Obligations.EncodingTwice
  refine ⟨fun c d bits h => ?_, fun c d e p q _ h hq => ?_⟩
  · obtain ⟨hfit, rfl⟩ := encode_eq_some_iff.mp h
    exact encode_eq_some_iff.mpr ⟨hfit.trans_eq (substitute_length c bits).symm,
      substitute_substitute c bits⟩
  · rw [Codec.decode, decodeRun_of_encode_pack h hq]

/-! ### The beat of the running machine -/

/-- With nothing due from the host, a running ENCODE with bits left takes one beat (R173). -/
theorem step_encBeat {s : State} (hs : s.script = []) (hf : s.fsm = .encoding)
    (hi : s.idx < s.nbits) : step s = .next s.encBeat := by
  rw [step_of_nil hs, State.coreStep_encoding hf, State.encodeStep, if_pos hi]

/-- The byte at `IDX` is the one an encoder beat substitutes into (R126). -/
theorem State.encBeat_readMem_idx (s : State) :
    s.encBeat.readMem .c s.idx = setLsb (s.readMem .c s.idx) s.packBit := by
  rw [encBeat_readMem, if_pos ⟨rfl, rfl⟩]

/-- Settles O23: the step is the encoder beat, whose registers and frame are the beat's own
lemmas; under the invariant the message fits, so `IDX` is below `CLEN`. -/
theorem encoderBeat : Obligations.EncoderBeat := by
  unfold Obligations.EncoderBeat
  intro s hs hf hi
  refine ⟨s.encBeat, step_encBeat hs hf hi, s.encBeat_readMem_idx, fun sp i hne => ?_,
    s.encBeat_memP, s.encBeat_memO, s.encBeat_idx, rfl, rfl, rfl, s.encBeat_fsm.trans hf,
    s.encBeat_acc, s.encBeat_bitpos, s.encBeat_err, s.encBeat_termFound, s.encBeat_cause,
    s.encBeat_plen, s.encBeat_clen, s.encBeat_olen, s.encBeat_script.trans hs, s.encBeat_seen,
    fun hinv => lt_of_lt_of_le hi (hinv.encoding hf).fits⟩
  rw [State.encBeat_readMem, if_neg hne]

end Sys2Proof.Machine

/-! The Channel Decoder (spec 42_channel_decoder.md R140 to R158): the byte of a group as a value,
`decode` in closed form by the group at which it stops, and the decoder of the running machine. -/

namespace Sys2Proof.Machine

/-! ### The byte of a group as a value -/

/-- A byte is the weighted sum of its bits, the most significant first. -/
theorem toNat_eq_sum_bits (b : Byte) :
    b.toNat = ((List.range 8).map fun k => (bitOf b (7 - k)).toNat * 2 ^ (7 - k)).sum := by
  have hb := b.isLt
  simp only [bitOf, BitVec.getLsbD, Nat.toNat_testBit, List.range_succ, List.range_zero,
    List.nil_append, List.map_append, List.map_cons, List.map_nil, List.sum_append, List.sum_cons,
    List.sum_nil]
  omega

/-- The source's `byte & 1` is the LSB as a number (R142). -/
theorem and_one_toNat (b : Byte) : (b &&& 0x01).toNat = (lsbOf b).toNat := by
  rw [lsbOf_eq, ← toNat_mod_two, BitVec.toNat_and]
  exact Nat.and_one_is_mod b.toNat

/-- Settles O25: bit `7 - k` of the group's byte is the LSB of its channel byte `k`. -/
theorem groupByteIsWeightedSum : Obligations.GroupByteIsWeightedSum := by
  unfold Obligations.GroupByteIsWeightedSum
  intro c g hg
  rw [toNat_eq_sum_bits]
  refine congrArg List.sum (List.map_congr_left fun k hk => ?_)
  have hk8 : k < 8 := List.mem_range.mp hk
  have hi : 8 * g + k < c.length := by omega
  rw [bitOf_groupByte c g k hk8 hg, and_one_toNat, List.getD_eq_getElem _ _ hi]

/-! ### `decode` in closed form -/

theorem groupByte_zero (c : List Byte) :
    Codec.groupByte c 0 = Codec.byteOf ((c.take 8).map lsbOf) := rfl

theorem groupByte_drop_eight (c : List Byte) (g : Nat) :
    Codec.groupByte (c.drop 8) g = Codec.groupByte c (g + 1) := by
  rw [Codec.groupByte, Codec.groupByte, List.drop_drop, Nat.mul_succ, Nat.add_comm 8]

/-- `decode`'s loop over the first whole group of a buffer (R140). -/
theorem decodeLoop_first_group {c : List Byte} (hc : 8 ≤ c.length) (out : List Byte) (n : Nat) :
    Codec.decodeLoop c 0x00 0 out n =
      if Codec.groupByte c 0 = Config.terminator then
        { bytes := out, found := true, read := n + 8 }
      else Codec.decodeLoop (c.drop 8) 0x00 0 (out ++ [Codec.groupByte c 0]) (n + 8) := by
  have hgroup : (c.take 8).length = 8 := List.length_take_of_le hc
  have h := decodeLoop_group (c.take 8) (c.drop 8) out n hgroup
  rwa [List.take_append_drop, ← groupByte_zero] at h

/-- Group `m` is where `decode` stops: the first whole group that spells the terminator, or the
number of whole groups when none does (the `m` of R150). -/
structure Codec.StopsAt (c : List Byte) (m : Nat) : Prop where
  le : m ≤ c.length / 8
  before : ∀ g, g < m → Codec.groupByte c g ≠ Config.terminator
  stop : m < c.length / 8 → Codec.groupByte c m = Config.terminator

theorem exists_stopsAt (c : List Byte) : ∃ m, Codec.StopsAt c m := by
  have hex : ∃ m, m < c.length / 8 → Codec.groupByte c m = Config.terminator :=
    ⟨c.length / 8, fun h => absurd h (Nat.lt_irrefl _)⟩
  refine ⟨Nat.find hex, Nat.find_min' hex fun h => absurd h (Nat.lt_irrefl _),
    fun g hg hterm => Nat.find_min hex hg fun _ => hterm, Nat.find_spec hex⟩

/-- The group at which `decode` of the rest stops. -/
theorem Codec.StopsAt.drop_eight {c : List Byte} {m : Nat} (h : Codec.StopsAt c (m + 1)) :
    Codec.StopsAt (c.drop 8) m := by
  obtain ⟨hle, hbefore, hstop⟩ := h
  have hlen : (c.drop 8).length / 8 = c.length / 8 - 1 := by rw [List.length_drop]; omega
  refine ⟨by omega, fun g hg => ?_, fun hm => ?_⟩
  · rw [groupByte_drop_eight]; exact hbefore (g + 1) (Nat.succ_lt_succ hg)
  · rw [groupByte_drop_eight]; exact hstop (by omega)

/-- `decode`'s loop from the start of a group: it appends the bytes of the groups before the one
at which it stops (R150). -/
theorem decodeLoop_of_stopsAt {c : List Byte} {m : Nat} (h : Codec.StopsAt c m)
    (out : List Byte) (n : Nat) :
    Codec.decodeLoop c 0x00 0 out n =
      { bytes := out ++ (List.range m).map (Codec.groupByte c)
        found := decide (m < c.length / 8)
        read := n + if m < c.length / 8 then 8 * (m + 1) else c.length } := by
  induction m generalizing c out n with
  | zero =>
    rw [List.range_zero, List.map_nil, List.append_nil]
    by_cases hwhole : 0 < c.length / 8
    · rw [decodeLoop_first_group (by omega), if_pos (h.stop hwhole), if_pos hwhole,
        decide_eq_true hwhole]
    · rw [decodeLoop_short c out n (by omega), if_neg hwhole, decide_eq_false hwhole]
  | succ m ih =>
    have hwhole : 8 ≤ c.length := by have := h.le; omega
    have hrest : m < (c.drop 8).length / 8 ↔ m + 1 < c.length / 8 := by
      rw [List.length_drop]; omega
    have hbytes : Codec.groupByte c 0 :: (List.range m).map (Codec.groupByte (c.drop 8)) =
        (List.range (m + 1)).map (Codec.groupByte c) := by
      rw [List.range_succ_eq_map, List.map_cons, List.map_map]
      exact congrArg _ (List.map_congr_left fun g _ => groupByte_drop_eight c g)
    have hread : n + 8 + (if m + 1 < c.length / 8 then 8 * (m + 1) else (c.drop 8).length) =
        n + if m + 1 < c.length / 8 then 8 * (m + 1 + 1) else c.length := by
      rw [List.length_drop]; split <;> omega
    rw [decodeLoop_first_group hwhole, if_neg (h.before 0 m.succ_pos), ih h.drop_eight]
    simp only [hrest, hread, List.append_assoc, List.singleton_append, hbytes]

theorem decodeRun_of_stopsAt {c : List Byte} {m : Nat} (h : Codec.StopsAt c m) :
    Codec.decodeRun c =
      { bytes := (List.range m).map (Codec.groupByte c)
        found := decide (m < c.length / 8)
        read := if m < c.length / 8 then 8 * (m + 1) else c.length } := by
  rw [Codec.decodeRun, decodeLoop_of_stopsAt h, List.nil_append, Nat.zero_add]

theorem decode_of_stopsAt {c : List Byte} {m : Nat} (h : Codec.StopsAt c m) :
    Codec.decode c = (List.range m).map (Codec.groupByte c) := by
  rw [Codec.decode, decodeRun_of_stopsAt h]

theorem decodeRun_found_iff {c : List Byte} {m : Nat} (h : Codec.StopsAt c m) :
    (Codec.decodeRun c).found = true ↔ m < c.length / 8 := by
  rw [decodeRun_of_stopsAt h, decide_eq_true_iff]

/-- Settles O26: the hypotheses say that `m` is the group at which `decode` stops. -/
theorem decodeClosedForm : Obligations.DecodeClosedForm := by
  unfold Obligations.DecodeClosedForm
  intro c m hle hbefore hstop
  have h : Codec.StopsAt c m := ⟨hle, hbefore, hstop⟩
  exact ⟨decode_of_stopsAt h, decodeRun_found_iff h, by rw [decodeRun_of_stopsAt h]⟩

/-- Settles O28: one byte for each group before the one at which `decode` stops. -/
theorem decodeOutputBound : Obligations.DecodeOutputBound := by
  unfold Obligations.DecodeOutputBound
  intro c
  obtain ⟨m, h⟩ := exists_stopsAt c
  have hlen : (Codec.decode c).length = m := by
    rw [decode_of_stopsAt h, List.length_map, List.length_range]
  rw [hlen, decodeRun_found_iff h]
  exact ⟨h.le, id⟩

/-- Settles O29: no group before the one at which `decode` stops spells the terminator. -/
theorem decodeOutputFreeOfTerminator : Obligations.DecodeOutputFreeOfTerminator := by
  unfold Obligations.DecodeOutputFreeOfTerminator
  intro c hmem
  obtain ⟨m, h⟩ := exists_stopsAt c
  rw [decode_of_stopsAt h] at hmem
  obtain ⟨g, hg, hterm⟩ := List.mem_map.mp hmem
  exact h.before g (List.mem_range.mp hg) hterm

/-! ### `decode` reads the LSBs alone -/

theorem decodeLoop_congr_lsb {c d : List Byte} (h : c.map lsbOf = d.map lsbOf) (acc : Byte)
    (bitpos : BitVec 3) (out : List Byte) (n : Nat) :
    Codec.decodeLoop c acc bitpos out n = Codec.decodeLoop d acc bitpos out n := by
  induction c generalizing d acc bitpos out n with
  | nil => rw [List.map_eq_nil_iff.mp h.symm]
  | cons b c ih =>
    cases d with
    | nil => simp at h
    | cons e d =>
      obtain ⟨hb, hrest⟩ := List.cons.inj h
      simp only [Codec.decodeLoop, hb, ih hrest]

/-- Settles O27: the LSB is read off `byte & 1`, and `decode`'s loop sees nothing else. -/
theorem decodeUsesOnlyLsbs : Obligations.DecodeUsesOnlyLsbs := by
  unfold Obligations.DecodeUsesOnlyLsbs
  intro c d h
  have hlsb : lsbOf = (bitOf · 0) ∘ (· &&& 0x01) := rfl
  refine decodeLoop_congr_lsb ?_ 0x00 0 [] 0
  rw [hlsb, ← List.map_map, ← List.map_map, h]

/-! ### `decode` of an encoded message -/

/-- Settles O30: the general round trip of a payload without 0x04. -/
theorem codecRoundTrip : Obligations.CodecRoundTrip := by
  unfold Obligations.CodecRoundTrip
  intro p c hp hfit
  have henc : Codec.encode c (Codec.pack p) = some (Codec.substitute c (Codec.pack p)) :=
    encode_eq_some_iff.mpr ⟨(pack_length p).trans_le hfit, rfl⟩
  have hrun := decodeRun_of_encode_pack henc hp
  exact ⟨_, henc, by rw [Codec.decode, hrun], by rw [hrun], by rw [hrun]⟩

/-- `decode` of an encoded payload stops at its first 0x04 (R156). -/
theorem decodeRun_of_encode_pack_append {c d q r : List Byte} (hq : Config.terminator ∉ q)
    (h : Codec.encode c (Codec.pack (q ++ Config.terminator :: r)) = some d) :
    Codec.decodeRun d = { bytes := q, found := true, read := 8 * (q.length + 1) } := by
  obtain ⟨hfit, rfl⟩ := encode_eq_some_iff.mp h
  rw [pack_length, List.length_append, List.length_cons] at hfit
  rw [Codec.decodeRun, pack_eq_frame, List.append_assoc, List.cons_append,
    decodeLoop_substitute_frame q _ hq (by omega), List.nil_append, Nat.zero_add]

/-- Settles O31: the payload is its first `j` bytes, a 0x04 and the rest. -/
theorem earlyTruncation : Obligations.EarlyTruncation := by
  unfold Obligations.EarlyTruncation
  intro p c d j hj hfirst henc
  obtain ⟨hlt, hterm⟩ := List.getElem?_eq_some_iff.mp hj
  have hp : p = p.take j ++ Config.terminator :: p.drop (j + 1) := by
    rw [Config.terminator, ← hterm, ← List.drop_eq_getElem_cons hlt, List.take_append_drop]
  rw [hp] at henc
  have hrun := decodeRun_of_encode_pack_append hfirst henc
  exact ⟨by rw [Codec.decode, hrun], by rw [hrun]⟩

/-! ### The decoder of the running machine -/

namespace State

/-- A bit in the middle of a group goes into `ACC` (R152). -/
theorem decBeat_of_partial {s : State} (h : s.bitpos ≠ 7) :
    s.decBeat = (s.setIdx (s.idx + 1)).setAcc s.decAcc (s.bitpos + 1) := if_neg h

/-- The eighth bit of the terminator ends the operation, with nothing appended (R145, R152). -/
theorem decBeat_of_terminator {s : State} (h : s.bitpos = 7)
    (ht : s.decAcc = Config.terminator) :
    s.decBeat =
      (((s.setIdx (s.idx + 1)).setAcc 0x00 0).setFlags s.err s.cause true).setFsm .finished :=
  (if_pos h).trans (if_pos ht)

/-- The eighth bit of any other byte appends it to `O` (R146, R152). -/
theorem decBeat_of_append {s : State} (h : s.bitpos = 7) (ht : s.decAcc ≠ Config.terminator) :
    s.decBeat =
      (((s.setIdx (s.idx + 1)).setAcc 0x00 0).writeMem .o s.olen s.decAcc).setOlen (s.olen + 1) :=
  (if_pos h).trans (if_neg ht)

/-- A running DECODE with channel bytes left takes one beat (R177). -/
theorem coreStep_decBeat {s : State} (hf : s.fsm = .accumulating) (hi : s.idx < s.clen) :
    s.coreStep = s.decBeat := (coreStep_accumulating hf).trans (if_pos hi)

/-- A running DECODE at the end of the buffer ends (R153, R177). -/
theorem coreStep_decExhaust {s : State} (hf : s.fsm = .accumulating) (hi : s.clen ≤ s.idx) :
    s.coreStep = s.decExhaust :=
  (coreStep_accumulating hf).trans (if_neg (Nat.not_lt.mpr hi))

end State

/-- A DECODE is accepted whenever the core is not busy (R176). -/
theorem exec_decode_of_not_busy {s : State} (hb : s.busy = false) :
    exec .decode s = .next s.acceptDecode := by
  simp [exec, execDecode, State.unlessBusy, hb]

/-- Settles O32: the step is the decoder beat, by cases on the bit position and the completed
byte; the frame is the beat's own lemmas. -/
theorem decoderBeat : Obligations.DecoderBeat := by
  unfold Obligations.DecoderBeat
  intro s acc' hs hf hi hacc
  obtain rfl : acc' = s.decAcc := by rw [hacc, State.decAcc, lsbOf_eq]
  have hstep : step s = .next s.decBeat := by
    rw [step_of_nil hs, State.coreStep_decBeat hf hi]
  refine ⟨s.decBeat, hstep, s.decBeat_idx, fun h7 => ?_, fun h7 hterm => ?_, fun h7 hne => ?_,
    s.decBeat_memP, s.decBeat_memC, s.decBeat_pidx, s.decBeat_pbit, s.decBeat_sr, s.decBeat_err,
    s.decBeat_cause, s.decBeat_plen, s.decBeat_clen, s.decBeat_script.trans hs, s.decBeat_seen⟩
  · rw [State.decBeat_of_partial h7]
    exact ⟨rfl, rfl, hf, rfl, rfl, rfl⟩
  · rw [State.decBeat_of_terminator h7 hterm]
    exact ⟨rfl, rfl, rfl, rfl, rfl, rfl⟩
  · rw [State.decBeat_of_append h7 hne]
    refine ⟨rfl, rfl, hf, rfl, rfl, ?_, fun i hi => ?_⟩
    · rw [State.setOlen_readMem, State.writeMem_readMem_same]
    · rw [State.setOlen_readMem, State.writeMem_readMem, if_neg (fun h => hi h.2)]
      simp

/-- Settles O33: at the end of the buffer the step is `DEC_EXHAUST`, and an accepted DECODE of
an empty buffer starts there. -/
theorem decoderExhaust : Obligations.DecoderExhaust := by
  unfold Obligations.DecoderExhaust
  have hend {s : State} (hs : s.script = []) (hf : s.fsm = .accumulating)
      (hi : s.idx = s.clen) : step s = .next s.decExhaust := by
    rw [step_of_nil hs, State.coreStep_decExhaust hf hi.ge]
  exact ⟨fun s => hend, fun s hs hb hc =>
    ⟨s.acceptDecode, exec_decode_of_not_busy hb, hend hs s.acceptDecode_fsm hc.symm⟩⟩

/-! ### What a DECODE depends on -/

namespace State

/-- Two states of a DECODE, running or ended, that agree on all it reads and shows: `CLEN` and
`C[0..CLEN)`, the sequencing, the decoder's registers, the flags and `O[0..OLEN)`. `PLEN`, P,
the packer's registers and the rest of O are left out (R149). -/
structure DecodeAgrees (s z : State) : Prop where
  notEncoding : s.fsm ≠ .encoding
  fsm : s.fsm = z.fsm
  idx : s.idx = z.idx
  acc : s.acc = z.acc
  bitpos : s.bitpos = z.bitpos
  err : s.err = z.err
  termFound : s.termFound = z.termFound
  cause : s.cause = z.cause
  olen : s.olen = z.olen
  channel : s.channel = z.channel
  output : s.output = z.output

theorem DecodeAgrees.clen {s z : State} (h : s.DecodeAgrees z) : s.clen = z.clen := by
  rw [← channel_length, h.channel, channel_length]

theorem DecodeAgrees.status {s z : State} (h : s.DecodeAgrees z) : s.status = z.status := by
  rw [State.status, State.status, h.fsm, h.err, h.termFound, h.cause]

/-- The wire `acc'` of a beat depends on the decoder's registers and on `C[IDX]`. -/
theorem DecodeAgrees.decAcc {s z : State} (h : s.DecodeAgrees z) (hi : s.idx < s.clen) :
    s.decAcc = z.decAcc := by
  have hread : s.readMem .c s.idx = z.readMem .c z.idx := by
    rw [← channel_getElem s s.idx (by simpa using hi),
      ← channel_getElem z z.idx (by rw [channel_length, ← h.idx, ← h.clen]; exact hi)]
    simp only [h.channel, h.idx]
  rw [State.decAcc, State.decAcc, h.acc, h.bitpos, hread]

theorem DecodeAgrees.decBeat {s z : State} (h : s.DecodeAgrees z) (hi : s.idx < s.clen) :
    s.decBeat.DecodeAgrees z.decBeat := by
  have hacc := h.decAcc hi
  have hterm : s.completesTerm = z.completesTerm := by
    rw [completesTerm, completesTerm, h.bitpos, hacc]
  have happ : s.appends = z.appends := by rw [appends, appends, h.bitpos, hacc]
  exact {
    notEncoding := by
      rw [decBeat_fsm]
      split
      · simp
      · exact h.notEncoding
    fsm := by rw [decBeat_fsm, decBeat_fsm, hterm, h.fsm]
    idx := by rw [decBeat_idx, decBeat_idx, h.idx]
    acc := by rw [decBeat_acc, decBeat_acc, h.bitpos, hacc]
    bitpos := by rw [decBeat_bitpos, decBeat_bitpos, h.bitpos]
    err := by rw [decBeat_err, decBeat_err, h.err]
    termFound := by rw [decBeat_termFound, decBeat_termFound, hterm, h.termFound]
    cause := by rw [decBeat_cause, decBeat_cause, h.cause]
    olen := by rw [decBeat_olen, decBeat_olen, happ, h.olen]
    channel := by rw [decBeat_channel, decBeat_channel, h.channel]
    output := by rw [decBeat_output, decBeat_output, happ, h.output, hacc] }

theorem DecodeAgrees.decExhaust {s z : State} (h : s.DecodeAgrees z) :
    s.decExhaust.DecodeAgrees z.decExhaust :=
  { h with
    notEncoding := by simp [State.decExhaust]
    fsm := rfl }

theorem DecodeAgrees.coreStep {s z : State} (h : s.DecodeAgrees z) :
    s.coreStep.DecodeAgrees z.coreStep := by
  by_cases hf : s.fsm = .accumulating
  · have hfz : z.fsm = .accumulating := h.fsm ▸ hf
    rcases Nat.lt_or_ge s.idx s.clen with hi | hi
    · have hiz : z.idx < z.clen := by rwa [← h.idx, ← h.clen]
      rw [coreStep_decBeat hf hi, coreStep_decBeat hfz hiz]
      exact h.decBeat hi
    · have hiz : z.clen ≤ z.idx := by rwa [← h.idx, ← h.clen]
      rw [coreStep_decExhaust hf hi, coreStep_decExhaust hfz hiz]
      exact h.decExhaust
  · have hb : s.busy = false := by
      rw [← Bool.not_eq_true, busy_iff]
      exact not_or.mpr ⟨h.notEncoding, hf⟩
    have hbz : z.busy = false := by rwa [State.busy, ← h.fsm]
    rwa [coreStep_of_not_busy hb, coreStep_of_not_busy hbz]

theorem DecodeAgrees.coreSteps {s z : State} (h : s.DecodeAgrees z) (n : Nat) :
    (s.coreSteps n).DecodeAgrees (z.coreSteps n) := by
  induction n generalizing s z with
  | zero => exact h
  | succ n ih => exact ih h.coreStep

/-- The acceptance of a DECODE sets all that it depends on but `CLEN` and C (R149, R176). -/
theorem acceptDecode_agrees {s z : State} (h : s.channel = z.channel) :
    s.acceptDecode.DecodeAgrees z.acceptDecode where
  notEncoding := by simp
  fsm := rfl
  idx := rfl
  acc := rfl
  bitpos := rfl
  err := rfl
  termFound := rfl
  cause := rfl
  olen := rfl
  channel := h
  output := rfl

theorem coreSteps_of_finished {s : State} (h : s.fsm = .finished) (n : Nat) :
    s.coreSteps n = s := coreSteps_of_not_busy ((not_busy_iff s).mpr (.inr h)) n

theorem coreSteps_finished_of_exhausted {s : State} (hf : s.fsm = .accumulating)
    (hi : s.clen ≤ s.idx) (n : Nat) : (s.coreSteps (n + 1)).fsm = .finished := by
  have hend : s.decExhaust.fsm = .finished := rfl
  rw [coreSteps_succ, coreStep_decExhaust hf hi, coreSteps_of_finished hend, hend]

/-- A running DECODE ends within one step more than the channel bytes it has left: a beat reads
one of them, and with none left the step ends the operation (R184). -/
theorem coreSteps_finished_of_accumulating {s : State} (hf : s.fsm = .accumulating) {n : Nat}
    (hn : s.clen ≤ s.idx + n) : (s.coreSteps (n + 1)).fsm = .finished := by
  induction n generalizing s with
  | zero => exact coreSteps_finished_of_exhausted hf hn 0
  | succ n ih =>
    rcases Nat.lt_or_ge s.idx s.clen with hi | hi
    · rw [coreSteps_succ, coreStep_decBeat hf hi]
      cases hterm : s.completesTerm with
      | true =>
        have hend : s.decBeat.fsm = .finished := by rw [decBeat_fsm, if_pos hterm]
        rw [coreSteps_of_finished hend, hend]
      | false =>
        refine ih (by simpa [decBeat_fsm, hterm] using hf) ?_
        rw [decBeat_clen, decBeat_idx]
        omega
    · exact coreSteps_finished_of_exhausted hf hi (n + 1)

end State

/-- Settles O37: acceptance makes the two states agree on all that a DECODE depends on, every
step keeps that, and after `CLEN + 1` steps the operation has ended. -/
theorem decodeIgnoresPayloadAndOldOutput : Obligations.DecodeIgnoresPayloadAndOldOutput := by
  unfold Obligations.DecodeIgnoresPayloadAndOldOutput
  intro s z hbs hbz hss hsz hclen hread
  have hchannel : s.channel = z.channel := by
    rw [State.channel, State.channel, ← hclen]
    exact State.readRange_congr fun i _ hi => hread i hi
  have hagree := (State.acceptDecode_agrees hchannel).coreSteps (s.clen + 1)
  have hend : (s.acceptDecode.coreSteps (s.clen + 1)).fsm = .finished :=
    State.coreSteps_finished_of_accumulating s.acceptDecode_fsm (Nat.le_add_left _ _)
  exact ⟨s.clen + 1, _, _, _, _, exec_decode_of_not_busy hbs,
    run_eq_coreSteps (s := s.acceptDecode) hss _, exec_decode_of_not_busy hbz,
    run_eq_coreSteps (s := z.acceptDecode) hsz _, hend, hagree.fsm ▸ hend, hagree.status,
    hagree.olen, hagree.output, hagree.idx, hagree.acc, hagree.bitpos⟩

end Sys2Proof.Machine

/-! The commands (spec 43_commands.md R170 to R188): their issue and acceptance, the changes of
`FSM` along every step, and the whole ENCODE and DECODE as runs of the core. -/

namespace Sys2Proof.Machine

/-! ### The issue of a command byte -/

/-- A host write to `CTRL` is the issue of its byte, with the write taken off the script. -/
theorem step_ctrl {s : State} {w : Byte} {rest : List HostAction}
    (hs : s.script = .write (.ctrl w) :: rest) : step s = (s.setScript rest).issue w :=
  step_of_cons hs

theorem issue_of_decoded {w : Byte} {i : Instr} (h : decodeCommand w = .ok i) (s : State) :
    s.issue w = exec i s := by rw [State.issue, h]

/-- A reserved byte raises the illegal command in a core that is not busy (R179). -/
theorem issue_of_reserved {s : State} (hb : s.busy = false) {w : Byte} {r : DecodeReject}
    (h : decodeCommand w = .error r) : s.issue w = .next (s.raise .illegalCommand) := by
  rw [State.issue, h]
  simp [execReserved, State.unlessBusy, hb]

/-- A row of the opcode table names the command its byte decodes to. -/
theorem decodeCommand_of_tableWord {w : Nat} {i : Instr} (h : decodeTableWord 8 w = some i) :
    decodeCommand (BitVec.ofNat 8 w) = .ok i := by
  rw [decodeTableWord, if_pos rfl] at h
  cases hd : decodeCommand (BitVec.ofNat 8 w) with
  | ok j => rw [hd] at h; cases h; rfl
  | error r => rw [hd] at h; cases h

/-- The step at a placed command is the issue of its byte: the bits above the low eight never
reach it, and taking the write off the script leaves the state as it was (log 8). -/
theorem step_withFetchWord (s : State) (w : Nat) :
    step (s.withFetchWord 8 w) = s.issue (BitVec.ofNat 8 w) := by
  have hbyte : BitVec.ofNat 8 (w % 2 ^ 8) = BitVec.ofNat 8 w :=
    BitVec.eq_of_toNat_eq (by simp)
  rw [State.withFetchWord, hbyte]
  exact step_ctrl (s := s.withCommand (BitVec.ofNat 8 w)) rfl

/-- Settles O5: the write to `CTRL` goes through the decoder to `exec`, and an empty script
leaves the move to the core. -/
theorem stepRunsDecodedCommand : Obligations.StepRunsDecodedCommand := by
  unfold Obligations.StepRunsDecodedCommand
  refine ⟨fun s rest w i hs hd => ?_, fun s w i hw => ?_, fun s => step_of_nil⟩
  · rw [step_ctrl hs, issue_of_decoded hd]
  · rw [step_withFetchWord, issue_of_decoded (decodeCommand_of_tableWord hw)]

/-- Settles O6: `ENCODING` and `ACCUMULATING` are the busy states, in which every register write
is ignored; in the other two the byte goes through the decoder. -/
theorem ctrlWriteIssue : Obligations.CtrlWriteIssue := by
  unfold Obligations.CtrlWriteIssue
  refine fun s rest => ⟨fun w hs hf => step_write_of_busy hs ((State.busy_iff s).mpr hf),
    fun w hs hf => ⟨fun i hd => ?_, fun hd => ?_⟩⟩
  · exact (step_ctrl hs).trans (issue_of_decoded hd _)
  · have hb : (s.setScript rest).busy = false := (State.not_busy_iff s).mpr hf
    exact (step_ctrl hs).trans (issue_of_reserved hb hd)

/-- `STATUS` after the illegal command: `FIN`, `ERR` and cause 2 (R32, R206). -/
theorem State.status_raise_illegalCommand (s : State) :
    (s.raise .illegalCommand).status = 0x26 :=
  status_of (f := .finished) (e := true) (t := false) (c := 2) rfl rfl rfl rfl (by decide)

/-- Settles O11: a byte from 0x03 on is rejected by the decoder, which raises the illegal command
unless the core is busy. -/
theorem reservedByteRaisesIllegalCommand : Obligations.ReservedByteRaisesIllegalCommand := by
  unfold Obligations.ReservedByteRaisesIllegalCommand
  refine fun s rest w hs hw => ⟨fun hb => ?_, step_write_of_busy hs⟩
  have hb' : (s.setScript rest).busy = false := hb
  exact ⟨_, (step_ctrl hs).trans (issue_of_reserved hb' (decodeCommand_reserved hw)), rfl,
    State.status_raise_illegalCommand _⟩

/-! ### The acceptance of the commands -/

/-- Settles O7: `NOP` answers the state itself on both sides of the busy guard. -/
theorem nopChangesNothing : Obligations.NopChangesNothing := by
  unfold Obligations.NopChangesNothing
  intro s
  have hguard : (if s.busy then s else s) = s := ite_self s
  exact congrArg Host.Outcome.next hguard

/-- `STATUS` of an operation just accepted: `BUSY` alone (R32). -/
theorem State.status_of_accepted {s : State} (hb : s.fsm = .encoding ∨ s.fsm = .accumulating)
    (herr : s.err = false) (hterm : s.termFound = false) (hcause : s.cause = 0) :
    s.status = 0x01 := by
  rcases hb with hf | hf
  · exact status_of hf herr hterm hcause (by decide)
  · exact status_of hf herr hterm hcause (by decide)

/-- Settles O8: the two sides of the capacity check. -/
theorem encodeAcceptance : Obligations.EncodeAcceptance := by
  unfold Obligations.EncodeAcceptance
  refine fun s hb => ⟨fun hfits => ?_, fun hlong => ?_⟩
  · exact ⟨s.startEncode, exec_encode_of_fits hb hfits, rfl,
      State.status_of_accepted (.inl rfl) rfl rfl rfl⟩
  · exact ⟨_, exec_encode_of_not_fits hb hlong, rfl, State.status_raise_capacityError _⟩

/-- Settles O10: there is no check before the acceptance of a DECODE. -/
theorem decodeAcceptance : Obligations.DecodeAcceptance := by
  unfold Obligations.DecodeAcceptance
  exact fun s hb => ⟨s.acceptDecode, exec_decode_of_not_busy hb, rfl,
    State.status_of_accepted (.inr rfl) rfl rfl rfl⟩

/-! ### The core's step with nothing from the host -/

/-- A running ENCODE with bits left takes one beat (R173). -/
theorem State.coreStep_encBeat {s : State} (hf : s.fsm = .encoding) (hi : s.idx < s.nbits) :
    s.coreStep = s.encBeat := (coreStep_encoding hf).trans (if_pos hi)

/-- A running ENCODE with all its bits written ends (R173). -/
theorem State.coreStep_encEnd {s : State} (hf : s.fsm = .encoding) (hi : s.nbits ≤ s.idx) :
    s.coreStep = s.setFsm .finished := (coreStep_encoding hf).trans (if_neg (Nat.not_lt.mpr hi))

/-- Settles O24: a beat while bits are left, then the end. -/
theorem encodeRunStep : Obligations.EncodeRunStep := by
  unfold Obligations.EncodeRunStep
  refine fun s hs hf => ⟨step_encBeat hs hf, fun hi => ?_⟩
  exact (step_of_nil hs).trans (congrArg Host.Outcome.next (State.coreStep_encEnd hf hi))

/-- Settles O49: the core has no step of its own while it is not busy. -/
theorem idleCoreWaits : Obligations.IdleCoreWaits := by
  unfold Obligations.IdleCoreWaits
  intro s hb hs
  rw [step_of_nil hs, State.coreStep_of_not_busy hb]

/-! ### Every operation ends -/

namespace State

@[simp] theorem coreSteps_script (s : State) (n : Nat) : (s.coreSteps n).script = s.script := by
  induction n generalizing s with
  | zero => rfl
  | succ n ih => rw [coreSteps_succ, ih, coreStep_script]

theorem coreSteps_finished_of_written {s : State} (hf : s.fsm = .encoding) (hi : s.nbits ≤ s.idx)
    (n : Nat) : (s.coreSteps (n + 1)).fsm = .finished := by
  rw [coreSteps_succ, coreStep_encEnd hf hi, coreSteps_of_finished (setFsm_fsm s _), setFsm_fsm]

/-- A running ENCODE ends within one step more than the bits it has left (R184). -/
theorem coreSteps_finished_of_encoding {s : State} (hf : s.fsm = .encoding) {n : Nat}
    (hn : s.nbits ≤ s.idx + n) : (s.coreSteps (n + 1)).fsm = .finished := by
  induction n generalizing s with
  | zero => exact coreSteps_finished_of_written hf hn 0
  | succ n ih =>
    rcases Nat.lt_or_ge s.idx s.nbits with hi | hi
    · rw [coreSteps_succ, coreStep_encBeat hf hi]
      refine ih (s.encBeat_fsm.trans hf) ?_
      rw [encBeat_nbits, encBeat_idx]
      omega
    · exact coreSteps_finished_of_written hf hi (n + 1)

/-- A running operation that meets the invariant has at most `CLEN` channel bytes left, an ENCODE
because it fits (R184). -/
theorem Inv.coreSteps_finished {s : State} (h : s.Inv) (hb : s.busy = true) :
    (s.coreSteps (s.clen + 1)).fsm = .finished := by
  rcases (busy_iff s).mp hb with hf | hf
  · have hfits := (h.encoding hf).fits
    exact coreSteps_finished_of_encoding hf (by omega)
  · exact coreSteps_finished_of_accumulating hf (by omega)

theorem ended_of_finished {s : State} (hs : s.script = []) (hf : s.fsm = .finished) :
    s.ended = true := by
  simp [ended, hs, (not_busy_iff s).mpr (.inr hf)]

end State

/-- Settles O38: each beat of the running operation takes one of the bytes left, and after
`CLEN + 1` steps it has ended. -/
theorem everyOperationEnds : Obligations.EveryOperationEnds := by
  unfold Obligations.EveryOperationEnds
  intro s h hb hs
  have hf := h.coreSteps_finished hb
  exact ⟨s.clen + 1, _, Nat.le_refl _, run_eq_coreSteps hs _, hf,
    State.ended_of_finished ((s.coreSteps_script _).trans hs) hf⟩

/-! ### The changes of `FSM` -/

namespace State

/-- The rows of R180 for the end of a running operation: all bits written, the terminator
completed, or the channel buffer used up. -/
def OperationEnds (s t : State) : Prop :=
  (s.fsm = .encoding ∧ s.idx = s.nbits ∧ t.fsm = .finished ∧ t.idx = s.idx ∧ t.memC = s.memC) ∨
  (s.fsm = .accumulating ∧ s.idx < s.clen ∧ s.bitpos = 7 ∧
    putBit s.acc 0 (bitOf (s.readMem .c s.idx) 0) = Config.terminator ∧
    t.fsm = .finished ∧ t.termFound = true ∧ t.idx = s.idx + 1) ∨
  (s.fsm = .accumulating ∧ s.idx = s.clen ∧ t.fsm = .finished ∧
    t.termFound = s.termFound ∧ t.olen = s.olen ∧ t.acc = s.acc ∧ t.bitpos = s.bitpos)

/-- On the eighth bit the wire `acc'` places the LSB of `C[IDX]` at bit 0 (R152). -/
theorem decAcc_of_seven {s : State} (h7 : s.bitpos = 7) :
    s.decAcc = putBit s.acc 0 (bitOf (s.readMem .c s.idx) 0) := by
  rw [decAcc, h7, lsbOf_eq]
  rfl

/-- The core's step changes `FSM` only to end a running operation (R180); under the invariant
`IDX` is then no further than the operation's last byte. -/
theorem Inv.coreStep_operationEnds {s : State} (h : s.Inv) (hne : s.coreStep.fsm ≠ s.fsm) :
    s.OperationEnds s.coreStep := by
  rcases coreStep_cases s with ⟨-, e⟩ | ⟨-, -, e⟩ | ⟨hf, hi, e⟩ | ⟨hf, hi, e⟩ | ⟨hf, hi, e⟩ <;>
    rw [e] at hne ⊢
  · exact absurd rfl hne
  · exact absurd s.encBeat_fsm hne
  · exact .inl ⟨hf, Nat.le_antisymm (h.encoding hf).idx hi, rfl, rfl, rfl⟩
  · have hterm : s.completesTerm = true := by
      by_contra hc
      exact hne (by rw [decBeat_fsm, if_neg hc])
    obtain ⟨h7, hacc⟩ := (completesTerm_iff s).mp hterm
    refine .inr (.inl ⟨hf, hi, h7, (decAcc_of_seven h7).symm.trans hacc, ?_, ?_, s.decBeat_idx⟩)
    · rw [decBeat_fsm, if_pos hterm]
    · rw [decBeat_termFound, if_pos hterm]
  · exact .inr (.inr ⟨hf, Nat.le_antisymm (h.decoding hf).idx hi, rfl, rfl, rfl, rfl, rfl⟩)

/-- What a command byte makes of `FSM` in a core that is not busy: nothing, or what a row of R180
for the issue of a command says. -/
theorem commandEffect_fsm (s : State) (w : Byte) :
    (s.commandEffect w).fsm = s.fsm ∨
    (w = 0x01 ∧ s.nbits ≤ s.clen ∧ (s.commandEffect w).fsm = .encoding) ∨
    (w = 0x01 ∧ s.clen < s.nbits ∧ (s.commandEffect w).fsm = .finished) ∨
    (w = 0x02 ∧ (s.commandEffect w).fsm = .accumulating) ∨
    (3 ≤ w.toNat ∧ (s.commandEffect w).fsm = .finished) := by
  rcases Nat.lt_or_ge w.toNat 3 with hw | hw
  · obtain ⟨i, rfl⟩ := exists_encodeCommand_eq hw
    rw [commandEffect, decodeCommand_encodeCommand]
    cases i with
    | nop => exact .inl rfl
    | encode =>
      rcases Nat.lt_or_ge s.clen s.nbits with hlong | hfits
      · have hno : ¬ s.fits = true := mt (fits_iff s).mp (Nat.not_le.mpr hlong)
        exact .inr (.inr (.inl ⟨rfl, hlong, congrArg fsm (if_neg hno)⟩))
      · exact .inr (.inl ⟨rfl, hfits, congrArg fsm (if_pos ((fits_iff s).mpr hfits))⟩)
    | decode => exact .inr (.inr (.inr (.inl ⟨rfl, rfl⟩)))
  · have hfault : s.commandEffect w = s.raise .illegalCommand := by
      rw [commandEffect, decodeCommand_reserved hw]
    exact .inr (.inr (.inr (.inr ⟨hw, congrArg fsm hfault⟩)))

@[simp] theorem writeBytes_fsm (s : State) (sp : Space) (a : Nat) (bs : List Byte) :
    (s.writeBytes sp a bs).fsm = s.fsm := by
  obtain ⟨p, c, o, e⟩ := s.writeBytes_fields sp a bs
  rw [e]

end State

/-- Settles O39, by cases on the move: a reset, a command byte and the core's step have their
rows of R180, and every other move leaves `FSM` alone. -/
theorem controlTransfers : Obligations.ControlTransfers := by
  unfold Obligations.ControlTransfers
  intro s t h hstep hne
  cases step_move hstep with
  | core _ => exact .inr (.inr (h.coreStep_operationEnds hne))
  | run n rest _ => exact .inr (.inr (h.coreStep_operationEnds hne))
  | reset a rest hs ha => exact .inl ⟨a, rest, hs, ha, rfl⟩
  | command w rest hs hb =>
    have hrow := ((s.setScript rest).commandEffect_fsm w).resolve_left hne
    exact .inr (.inl ⟨(State.not_busy_iff s).mp hb, w, rest, hs, hrow⟩)
  | load sp i bs rest _ _ => exact absurd (State.writeBytes_fsm _ sp i bs) hne
  | skip _ _ _ => exact absurd rfl hne
  | plen _ _ _ _ => exact absurd rfl hne
  | clen _ _ _ _ => exact absurd rfl hne
  | observe _ _ _ _ _ => exact absurd rfl hne

/-! ### The whole ENCODE -/

namespace State

/-- `v` is what an ENCODE of `s` has come to after `k` core steps: the first `k` bits of the
framed message are in C, and besides C only `IDX` and the packer's registers have moved since
the start (R173, R108). -/
structure Encoded (s : State) (k : Nat) (v : State) : Prop where
  inv : v.EncodeInv
  frame : ∃ a b r m, v = { s.startEncode with idx := k, pidx := a, pbit := b, sr := r, memC := m }
  channel : ∀ i, v.readMem .c i =
    if i < k then setLsb (s.readMem .c i) (s.frameBit i) else s.readMem .c i

theorem Encoded.fsm {s v : State} {k : Nat} (h : s.Encoded k v) : v.fsm = .encoding := by
  obtain ⟨a, b, r, m, rfl⟩ := h.frame
  rfl

theorem Encoded.idx {s v : State} {k : Nat} (h : s.Encoded k v) : v.idx = k := by
  obtain ⟨a, b, r, m, rfl⟩ := h.frame
  rfl

theorem Encoded.nbits {s v : State} {k : Nat} (h : s.Encoded k v) : v.nbits = s.nbits := by
  obtain ⟨a, b, r, m, rfl⟩ := h.frame
  rfl

theorem Encoded.clen {s v : State} {k : Nat} (h : s.Encoded k v) : v.clen = s.clen := by
  obtain ⟨a, b, r, m, rfl⟩ := h.frame
  rfl

/-- The framed message is that of the start: an ENCODE writes no payload (R124). -/
theorem Encoded.frameBit {s v : State} {k : Nat} (h : s.Encoded k v) (j : Nat) :
    v.frameBit j = s.frameBit j := by
  obtain ⟨a, b, r, m, rfl⟩ := h.frame
  rfl

theorem startEncode_encoded {s : State} (hfits : s.nbits ≤ s.clen) :
    s.Encoded 0 s.startEncode where
  inv := startEncode_encodeInv hfits
  frame := ⟨_, _, _, _, rfl⟩
  channel i := (if_neg (Nat.not_lt_zero i)).symm

/-- One beat puts the framed message's next bit into C (R126). -/
theorem Encoded.encBeat {s v : State} {k : Nat} (h : s.Encoded k v) (hk : k < s.nbits) :
    s.Encoded (k + 1) v.encBeat where
  inv := h.inv.encBeat (by rw [h.idx, h.nbits]; exact hk)
  frame := by
    obtain ⟨a, b, r, m, rfl⟩ := h.frame
    exact ⟨_, _, _, _, rfl⟩
  channel i := by
    rw [encBeat_readMem, h.inv.packBit, h.frameBit, h.idx, h.channel, h.channel]
    by_cases hi : i = k
    · subst hi; simp
    · have hlt : i < k + 1 ↔ i < k := by omega
      simp only [hi, hlt, and_false, if_false]

/-- The first `k` core steps of an ENCODE that fits are `k` beats (R127, R173). -/
theorem coreSteps_startEncode {s : State} (hfits : s.nbits ≤ s.clen) {k : Nat}
    (hk : k ≤ s.nbits) : s.Encoded k (s.startEncode.coreSteps k) := by
  induction k with
  | zero => exact startEncode_encoded hfits
  | succ k ih =>
    have hprev := ih (Nat.le_of_succ_le hk)
    rw [coreSteps_succ', coreStep_encBeat hprev.fsm (by rw [hprev.idx, hprev.nbits]; exact hk)]
    exact hprev.encBeat hk

/-- After the last bit the channel buffer is `encode` of `pack` of the payload (R175). -/
theorem Encoded.encode_channel {s v : State} (h : s.Encoded s.nbits v) (hfits : s.nbits ≤ s.clen) :
    Codec.encode s.channel (Codec.pack s.payload) = some v.channel := by
  have hlen : (Codec.pack s.payload).length = s.nbits := by simp [State.nbits]
  refine encode_eq_some_iff.mpr ⟨by simpa [hlen] using hfits,
    List.ext_getElem (by simp [h.clen]) fun i _ _ => ?_⟩
  rw [substitute_getElem, channel_getElem, channel_getElem, h.channel]
  by_cases hi : i < s.nbits
  · have hbit := s.pack_payload_getElem? hi
    obtain ⟨hlt, hbit⟩ := List.getElem?_eq_some_iff.mp hbit
    rw [dif_pos hlt, if_pos hi, hbit]
  · rw [dif_neg (by rwa [hlen]), if_neg hi]

/-- The packer's registers after the last bit (R108, R175). -/
theorem Encoded.packer {s v : State} (h : s.Encoded s.nbits v) :
    v.pidx = s.plen + 1 ∧ v.pbit = 0 ∧ v.sr = 0x00 := by
  obtain ⟨-, -, hpidx, hpbit, hsr⟩ := h.inv
  have hidx : v.idx = 8 * (s.plen + 1) := h.idx
  refine ⟨by omega, (pbit_eq_zero_iff v).mpr (by omega), ?_⟩
  rw [hsr, if_pos (by omega)]

/-- The state in which an ENCODE of `s` that fits ends. -/
def encodeEnd (s : State) : State := (s.startEncode.coreSteps s.nbits).setFsm .finished

end State

/-- An ENCODE that fits ends in the step after its last bit (R174). -/
theorem run_startEncode {s : State} (hs : s.script = []) (hfits : s.nbits ≤ s.clen) :
    Host.Core.run Sys2Proof.core (s.nbits + 1) s.startEncode = .next s.encodeEnd := by
  have h := State.coreSteps_startEncode hfits (Nat.le_refl s.nbits)
  rw [run_eq_coreSteps (s := s.startEncode) hs, State.coreSteps_succ',
    State.coreStep_encEnd h.fsm (by rw [h.idx, h.nbits]), State.encodeEnd]

/-- Settles O34: after `k` core steps the first `k` bits of the framed message are in C and the
ENCODE still runs, up to the last bit; the step after it ends the ENCODE. -/
theorem encodeWholeOperation : Obligations.EncodeWholeOperation := by
  unfold Obligations.EncodeWholeOperation
  refine fun s hb hs => ⟨fun hfits => ?_, (encodeAcceptance s hb).2⟩
  have hrunning {k : Nat} (hk : k ≤ s.nbits) := State.coreSteps_startEncode hfits hk
  have hlast := hrunning (Nat.le_refl s.nbits)
  have hcode := hlast.encode_channel hfits
  have hkept (i : Nat) (hi : s.nbits ≤ i) : s.encodeEnd.readMem .c i = s.readMem .c i :=
    (hlast.channel i).trans (if_neg (Nat.not_lt.mpr hi))
  obtain ⟨hpidx, hpbit, hsr⟩ := hlast.packer
  obtain ⟨a, b, r, m, hframe⟩ := hlast.frame
  refine ⟨s.startEncode, s.encodeEnd, exec_encode_of_fits hb hfits,
    fun k hk => ⟨_, run_eq_coreSteps (s := s.startEncode) hs k, (hrunning hk).fsm⟩,
    run_startEncode hs hfits, rfl, ?_, hcode, hkept, hlast.idx, hpidx, hpbit, hsr, ?_⟩
  · rw [State.encodeEnd, hframe]
    exact State.status_of (f := .finished) (e := false) (t := false) (c := 0) rfl rfl rfl rfl
      (by decide)
  · rw [State.encodeEnd, hframe]
    exact ⟨rfl, rfl, rfl, rfl, rfl, rfl, rfl⟩

/-! ### The whole DECODE -/

namespace State

/-- `v` is what a DECODE of `s` that still runs has come to after `k` core steps: besides O only
`IDX` and the decoder's registers have moved since its acceptance, and O is rewritten below
`OLEN` alone (R177, R154). -/
structure Decoded (s : State) (k : Nat) (v : State) : Prop where
  inv : v.DecodeInv
  frame : ∃ a b n m, v =
    { s.acceptDecode with idx := k, acc := a, bitpos := b, olen := n, memO := m }
  above : ∀ i, v.olen ≤ i → v.readMem .o i = s.readMem .o i

theorem Decoded.fsm {s v : State} {k : Nat} (h : s.Decoded k v) : v.fsm = .accumulating := by
  obtain ⟨a, b, n, m, rfl⟩ := h.frame
  rfl

theorem Decoded.idx {s v : State} {k : Nat} (h : s.Decoded k v) : v.idx = k := by
  obtain ⟨a, b, n, m, rfl⟩ := h.frame
  rfl

theorem Decoded.clen {s v : State} {k : Nat} (h : s.Decoded k v) : v.clen = s.clen := by
  obtain ⟨a, b, n, m, rfl⟩ := h.frame
  rfl

theorem Decoded.channel {s v : State} {k : Nat} (h : s.Decoded k v) : v.channel = s.channel := by
  obtain ⟨a, b, n, m, rfl⟩ := h.frame
  rfl

theorem Decoded.bitpos {s v : State} {k : Nat} (h : s.Decoded k v) : v.bitpos.toNat = k % 8 := by
  rw [h.inv.bitpos, h.idx]

theorem Decoded.olen {s v : State} {k : Nat} (h : s.Decoded k v) : v.olen = k / 8 := by
  rw [h.inv.olen, h.idx]

/-- `ACC` holds the LSBs of the current group collected so far (R154). -/
theorem Decoded.acc {s v : State} {k : Nat} (h : s.Decoded k v) (j : Nat) (hj : j < 8) :
    bitOf v.acc (7 - j) =
      if j < k % 8 then bitOf (s.readMem .c (8 * (k / 8) + j)) 0 else false := by
  have hread (i : Nat) : v.readMem .c i = s.readMem .c i := by
    obtain ⟨a, b, n, m, rfl⟩ := h.frame
    rfl
  rw [h.inv.acc j hj, h.bitpos, h.olen, hread, lsbOf_eq]

/-- On the eighth bit the wire `acc'` is the byte of the current group (R144). -/
theorem Decoded.decAcc {s v : State} {k : Nat} (h : s.Decoded k v) (hk : k < s.clen)
    (h7 : v.bitpos = 7) : v.decAcc = Codec.groupByte s.channel (k / 8) := by
  rw [h.inv.decAcc_eq_groupByte (by rwa [h.idx, h.clen]) h7, h.channel, h.olen]

theorem acceptDecode_decoded (s : State) : s.Decoded 0 s.acceptDecode where
  inv := s.acceptDecode_decodeInv
  frame := ⟨_, _, _, _, rfl⟩
  above _ _ := rfl

/-- A beat that does not complete the terminator appends at `OLEN`, or leaves O alone (R152). -/
theorem Decoded.decBeat {s v : State} {k : Nat} (h : s.Decoded k v) (hk : k < s.clen)
    (hc : v.completesTerm = false) : s.Decoded (k + 1) v.decBeat where
  inv := h.inv.decBeat (by rwa [h.idx, h.clen]) hc
  frame := by
    have hgoes : ¬ (v.bitpos = 7 ∧ v.decAcc = Config.terminator) := by
      rw [← completesTerm_iff, hc]; decide
    obtain ⟨a, b, n, m, rfl⟩ := h.frame
    by_cases h7 : b = 7
    · rw [decBeat_of_append h7 fun ht => hgoes ⟨h7, ht⟩]
      exact ⟨_, _, _, _, rfl⟩
    · rw [decBeat_of_partial h7]
      exact ⟨_, _, _, _, rfl⟩
  above i hi := by
    rw [decBeat_olen] at hi
    rw [decBeat_readMem]
    by_cases ha : v.appends = true
    · rw [if_pos ha] at hi
      rw [if_neg (by omega), h.above i (by omega)]
    · rw [if_neg ha] at hi
      rw [if_neg (by simp [ha]), h.above i hi]

/-- The core steps of a DECODE up to the last bit of group `m`, at which `decode` stops: no
earlier group spells the terminator (R150, R177). -/
theorem coreSteps_acceptDecode {s : State} {m : Nat} (hm : Codec.StopsAt s.channel m) {k : Nat}
    (hclen : k ≤ s.clen) (hk : k ≤ 8 * m + 7) : s.Decoded k (s.acceptDecode.coreSteps k) := by
  induction k with
  | zero => exact s.acceptDecode_decoded
  | succ k ih =>
    have hprev := ih (by omega) (by omega)
    have hlt : k < s.clen := hclen
    have hgoes : (s.acceptDecode.coreSteps k).completesTerm = false := by
      by_contra hterm
      obtain ⟨h7, hacc⟩ := (completesTerm_iff _).mp (by simpa using hterm)
      have hpos := hprev.bitpos
      rw [(pbit_eq_seven_iff _).mp h7] at hpos
      refine hm.before (k / 8) ?_ ((hprev.decAcc hlt h7).symm.trans hacc)
      have hle := hm.le
      omega
    rw [coreSteps_succ', coreStep_decBeat hprev.fsm (by rwa [hprev.idx, hprev.clen])]
    exact hprev.decBeat hlt hgoes

/-- The bytes of the groups before group `m` are the result of `decode` (R150). -/
theorem Decoded.output {s v : State} {k m : Nat} (h : s.Decoded k v)
    (hm : Codec.StopsAt s.channel m) (hk : k / 8 = m) : v.output = Codec.decode s.channel := by
  have hle : m ≤ s.channel.length / 8 := hm.le
  rw [h.inv.output, h.channel, h.olen, hk, decode_of_stopsAt hm, Codec.groupBytes, ← List.map_take,
    List.take_range, Nat.min_eq_left hle]

/-- The beat on the last bit of the terminator's group ends the DECODE (R145, R152). -/
theorem Decoded.coreStep_terminator {s v : State} {m : Nat} (h : s.Decoded (8 * m + 7) v)
    (hm : Codec.StopsAt s.channel m) (hfound : 8 * (m + 1) ≤ s.clen) :
    v.coreStep = { v with
      fsm := .finished, idx := 8 * (m + 1), acc := 0x00, bitpos := 0, termFound := true } := by
  have hlt : 8 * m + 7 < s.clen := hfound
  have hwhole : m < s.channel.length / 8 := by rw [channel_length]; omega
  have h7 : v.bitpos = 7 := (pbit_eq_seven_iff _).mpr (by rw [h.bitpos]; omega)
  have hgroup : (8 * m + 7) / 8 = m := by omega
  have hacc : v.decAcc = Config.terminator := by
    rw [h.decAcc hlt h7, hgroup, hm.stop hwhole]
  rw [coreStep_decBeat h.fsm (by rwa [h.idx, h.clen]), decBeat_of_terminator h7 hacc, h.idx]
  rfl

/-- With all of C read the step ends the DECODE and moves `FSM` alone (R153). -/
theorem Decoded.coreStep_exhausted {s v : State} (h : s.Decoded s.clen v) :
    v.coreStep = { v with fsm := .finished } :=
  coreStep_decExhaust h.fsm (by rw [h.idx, h.clen])

end State

/-- Settles O35: the DECODE runs on to the last bit of the group at which `decode` stops, or to
the end of the buffer, with the bytes of the groups before in O; the next step ends it. -/
theorem decodeWholeOperation : Obligations.DecodeWholeOperation := by
  unfold Obligations.DecodeWholeOperation
  intro s hb hs
  obtain ⟨m, hm⟩ := exists_stopsAt s.channel
  have hrunning {k : Nat} := State.coreSteps_acceptDecode hm (k := k)
  have hrun := run_eq_coreSteps (s := s.acceptDecode) hs
  have hresult := decodeRun_of_stopsAt hm
  have hlength : (Codec.decode s.channel).length = m := by simp [decode_of_stopsAt hm]
  have hle : m ≤ s.clen / 8 := by simpa using hm.le
  rw [State.channel_length] at hresult
  by_cases hfound : m < s.clen / 8
  · have hlast := hrunning (k := 8 * m + 7) (by omega) (Nat.le_refl _)
    have hstop := hrun (8 * m + 7 + 1)
    rw [State.coreSteps_succ', hlast.coreStep_terminator hm (by omega)] at hstop
    have holen := hlast.olen.trans (show (8 * m + 7) / 8 = m by omega)
    have hout := hlast.output hm (by omega)
    have habove := hlast.above
    obtain ⟨a, b, n, o, hv⟩ := hlast.frame
    rw [hv] at hstop holen hout habove
    have hcount := congrArg (fun j => 8 * (j + 1)) holen.symm
    refine ⟨8 * m + 7 + 1, s.acceptDecode, _, exec_decode_of_not_busy hb,
      fun k hk => ⟨_, hrun k, (hrunning (by omega) (by omega)).fsm⟩, hstop, rfl,
      holen.trans hlength.symm, hout, ?_, ?_, fun _ => ⟨?_, hcount, hcount, rfl, rfl⟩,
      fun hno => Bool.noConfusion hno, rfl, rfl, rfl, rfl, rfl, rfl, rfl, habove⟩
    · rw [hresult, decide_eq_true hfound]
    · rw [hresult, if_pos hfound]
    · exact State.status_of (f := .finished) (e := false) (t := true) (c := 0) rfl rfl rfl rfl
        (by decide)
  · have hlast := hrunning (k := s.clen) (Nat.le_refl _) (by omega)
    have hstop := hrun (s.clen + 1)
    rw [State.coreSteps_succ', hlast.coreStep_exhausted] at hstop
    have holen := hlast.olen.trans (show s.clen / 8 = m by omega)
    have hout := hlast.output hm (by omega)
    have hbitpos := hlast.bitpos
    have hacc := hlast.acc
    have habove := hlast.above
    obtain ⟨a, b, n, o, hv⟩ := hlast.frame
    rw [hv] at hstop holen hout hbitpos hacc habove
    refine ⟨s.clen + 1, s.acceptDecode, _, exec_decode_of_not_busy hb,
      fun k hk => ⟨_, hrun k, (hrunning (by omega) (by omega)).fsm⟩, hstop, rfl,
      holen.trans hlength.symm, hout, ?_, ?_, fun hyes => Bool.noConfusion hyes,
      fun _ => ⟨?_, rfl, rfl, hbitpos, hacc⟩, rfl, rfl, rfl, rfl, rfl, rfl, rfl, habove⟩
    · rw [hresult, decide_eq_false hfound]; rfl
    · rw [hresult, if_neg hfound]
    · exact State.status_of (f := .finished) (e := false) (t := false) (c := 0) rfl rfl rfl rfl
        (by decide)

/-! ### ENCODE, then DECODE -/

/-- `decode` of any encoded payload ends at a terminator: the payload's first 0x04 or the one
`pack` adds (R156, R157). -/
theorem decodeRun_encoded_found {c d p : List Byte}
    (h : Codec.encode c (Codec.pack p) = some d) : (Codec.decodeRun d).found = true := by
  by_cases hp : Config.terminator ∈ p
  · obtain ⟨q, r, rfl, hq⟩ := List.eq_append_cons_of_mem hp
    rw [decodeRun_of_encode_pack_append hq h]
  · rw [decodeRun_of_encode_pack h hp]

/-- Settles O36: the ENCODE leaves `encode` of `pack` of the payload in C, and the DECODE of that
channel buffer gives what `decode` gives of it. -/
theorem encodeThenDecode : Obligations.EncodeThenDecode := by
  unfold Obligations.EncodeThenDecode
  intro s hb hs hfits
  refine ⟨s.startEncode, s.encodeEnd, exec_encode_of_fits hb hfits, run_startEncode hs hfits,
    fun w hwb hws hclen hread => ?_⟩
  have hlast := State.coreSteps_startEncode hfits (Nat.le_refl s.nbits)
  have hchannel : w.channel = s.encodeEnd.channel := by
    rw [State.channel, State.channel, hclen, State.encodeEnd, State.setFsm_clen, hlast.clen]
    exact State.readRange_congr fun i _ hi => hread i hi
  have hcode : Codec.encode s.channel (Codec.pack s.payload) = some w.channel := by
    rw [hchannel]; exact hlast.encode_channel hfits
  obtain ⟨n, v, z, hexec, -, hrun, -, holen, hout, hterm, -, hfound, -⟩ :=
    decodeWholeOperation w hwb hws
  have hstatus : z.status = 0x0A := (hfound (hterm.trans (decodeRun_encoded_found hcode))).1
  refine ⟨n, v, z, hexec, hrun, hstatus, fun hp => ?_, fun j hj hfirst => ?_⟩
  · have hdecode : Codec.decode w.channel = s.payload := by
      rw [Codec.decode, decodeRun_of_encode_pack hcode hp]
    rw [holen, hout, hdecode, State.payload_length]
    exact ⟨rfl, rfl⟩
  · obtain ⟨hlt, -⟩ := List.getElem?_eq_some_iff.mp hj
    obtain ⟨hdecode, -⟩ := earlyTruncation _ _ _ j hj hfirst hcode
    rw [holen, hout, hdecode, List.length_take_of_le (Nat.le_of_lt hlt)]
    exact ⟨rfl, rfl⟩

end Sys2Proof.Machine

/-! The exceptions (spec 60_exceptions.md R200 to R210): the fault entry, where each cause is
raised, how long a fault's flags stand, and the one refusal a step can answer. -/

namespace Sys2Proof.Machine

/-! ### The fault entry -/

/-- Settles O12: the entry rewrites `ERR`, `CAUSE`, `TERM` and `FSM` and no other field. -/
theorem faultEntryEffect : Obligations.FaultEntryEffect := by
  unfold Obligations.FaultEntryEffect
  exact fun s => ⟨rfl, s.status_raise_capacityError, rfl, s.status_raise_illegalCommand⟩

namespace State

@[simp] theorem raise_fsm (s : State) (f : CoreFault) : (s.raise f).fsm = .finished := rfl
@[simp] theorem raise_err (s : State) (f : CoreFault) : (s.raise f).err = true := rfl
@[simp] theorem raise_cause (s : State) (f : CoreFault) : (s.raise f).cause = f.code := rfl
@[simp] theorem raise_readMem (s : State) (f : CoreFault) (sp : Space) (i : Nat) :
    (s.raise f).readMem sp i = s.readMem sp i := by simp [raise]

/-! ### Where each cause is raised -/

@[simp] theorem startEncode_err (s : State) : s.startEncode.err = false := rfl
@[simp] theorem startEncode_cause (s : State) : s.startEncode.cause = 0 := rfl
@[simp] theorem acceptDecode_err (s : State) : s.acceptDecode.err = false := rfl
@[simp] theorem acceptDecode_cause (s : State) : s.acceptDecode.cause = 0 := rfl

/-- What a command byte makes of a core that is not busy, by the byte and, for an ENCODE, by the
capacity check (R170 to R172, R176, R179). -/
theorem commandEffect_cases (s : State) (w : Byte) :
    (w = 0x00 ∧ s.commandEffect w = s) ∨
    (w = 0x01 ∧ s.nbits ≤ s.clen ∧ s.commandEffect w = s.startEncode) ∨
    (w = 0x01 ∧ s.clen < s.nbits ∧
      s.commandEffect w = s.clearFlags.raise .capacityError) ∨
    (w = 0x02 ∧ s.commandEffect w = s.acceptDecode) ∨
    (3 ≤ w.toNat ∧ s.commandEffect w = s.raise .illegalCommand) := by
  rcases Nat.lt_or_ge w.toNat 3 with hw | hw
  · obtain ⟨i, rfl⟩ := exists_encodeCommand_eq hw
    cases i with
    | nop => exact .inl ⟨rfl, rfl⟩
    | encode =>
      rcases Nat.lt_or_ge s.clen s.nbits with hlong | hfits
      · have hno : ¬ s.fits = true := mt (fits_iff s).mp (Nat.not_le.mpr hlong)
        exact .inr (.inr (.inl ⟨rfl, hlong, if_neg hno⟩))
      · exact .inr (.inl ⟨rfl, hfits, if_pos ((fits_iff s).mpr hfits)⟩)
    | decode => exact .inr (.inr (.inr (.inl ⟨rfl, rfl⟩)))
  · have hfault : s.commandEffect w = s.raise .illegalCommand := by
      rw [commandEffect, decodeCommand_reserved hw]
    exact .inr (.inr (.inr (.inr ⟨hw, hfault⟩)))

end State

/-- A host write to `CTRL` of a core that is not busy is its byte's effect. -/
theorem step_ctrl_of_not_busy {s : State} {w : Byte} {rest : List HostAction}
    (hs : s.script = .write (.ctrl w) :: rest) (hb : s.busy = false) :
    step s = .next ((s.setScript rest).commandEffect w) := by
  rw [step_ctrl hs, issue_eq, State.setScript_busy, hb, if_neg Bool.false_ne_true]

/-- Settles O13, by the effects of a command byte: the two accepted operations start with cleared
flags, and each of the two fault entries leaves its own cause. -/
theorem faultsExactlyAsTheTable : Obligations.FaultsExactlyAsTheTable := by
  unfold Obligations.FaultsExactlyAsTheTable
  intro s rest w hs hb hw
  refine ⟨_, step_ctrl_of_not_busy hs hb, ?_⟩
  rcases (s.setScript rest).commandEffect_cases w with
    ⟨h0, -⟩ | ⟨rfl, hfits, he⟩ | ⟨rfl, hlong, he⟩ | ⟨rfl, he⟩ | ⟨h3, he⟩
  · exact absurd h0 hw
  · have hno : ¬ s.clen < 8 * (s.plen + 1) := Nat.not_lt.mpr hfits
    rw [he]
    simp [hno]
  · have hyes : s.clen < 8 * (s.plen + 1) := hlong
    rw [he]
    simp [State.clearFlags, CoreFault.code, hyes]
  · rw [he]
    simp
  · have h1 : w ≠ 0x01#8 := by rintro rfl; exact absurd h3 (by decide)
    rw [he]
    simp [CoreFault.code, h1, h3]

/-! ### How long a fault's flags stand -/

@[simp] theorem State.writeBytes_err (s : State) (sp : Space) (a : Nat) (bs : List Byte) :
    (s.writeBytes sp a bs).err = s.err := by
  obtain ⟨p, c, o, e⟩ := s.writeBytes_fields sp a bs
  rw [e]

@[simp] theorem State.writeBytes_cause (s : State) (sp : Space) (a : Nat) (bs : List Byte) :
    (s.writeBytes sp a bs).cause = s.cause := by
  obtain ⟨p, c, o, e⟩ := s.writeBytes_fields sp a bs
  rw [e]

/-- Settles O14, by cases on the move: only a reset and a command byte other than `NOP`'s write
the flags, and the core's own step never does (R200). -/
theorem faultFlagsPersist : Obligations.FaultFlagsPersist := by
  unfold Obligations.FaultFlagsPersist
  intro s t hstep hne
  cases step_move hstep with
  | reset a rest hs ha => exact ⟨a, rest, hs, .inl ha⟩
  | command w rest hs hb =>
    have hw : w ≠ 0x00 := by rintro rfl; exact hne ⟨rfl, rfl⟩
    exact ⟨_, rest, hs, .inr ⟨hb, w, hw, rfl⟩⟩
  | core _ => exact absurd ⟨s.coreStep_err, s.coreStep_cause⟩ hne
  | run n rest _ => exact absurd ⟨s.coreStep_err, s.coreStep_cause⟩ hne
  | load sp i bs rest _ _ =>
    exact absurd ⟨State.writeBytes_err _ sp i bs, State.writeBytes_cause _ sp i bs⟩ hne
  | skip _ _ _ => exact absurd ⟨rfl, rfl⟩ hne
  | plen _ _ _ _ => exact absurd ⟨rfl, rfl⟩ hne
  | clen _ _ _ _ => exact absurd ⟨rfl, rfl⟩ hne
  | observe _ _ _ _ _ => exact absurd ⟨rfl, rfl⟩ hne

/-! ### Where a step stops -/

namespace State

/-- A register write is never refused: a busy core ignores it (R41, R170). -/
theorem exists_writeReg_eq_next (s : State) (w : RegWrite) : ∃ t, s.writeReg w = .next t := by
  cases w with
  | ctrl w => exact ⟨_, issue_eq s w⟩
  | status _ => exact ⟨_, rfl⟩
  | plen _ => exact ⟨_, rfl⟩
  | clen _ => exact ⟨_, rfl⟩
  | olen _ => exact ⟨_, rfl⟩
  | absent _ _ => exact ⟨_, rfl⟩

/-- A load is refused only where it names a byte and the core is busy (R41, U1). -/
theorem loadBytes_cases (s : State) (sp : Space) (a : Nat) (bs : List Byte) :
    (∃ t, s.loadBytes sp a bs = .next t) ∨
      (s.busy = true ∧ bs ≠ [] ∧ s.loadBytes sp a bs = .refused (.hostMemoryWhileBusy sp)) := by
  cases hb : s.busy
  · exact .inl ⟨_, loadBytes_of_not_busy hb sp a bs⟩
  · by_cases hbs : bs = []
    · exact .inl ⟨s, by simp [loadBytes, writeBytes, hbs]⟩
    · exact .inr ⟨rfl, hbs, loadBytes_of_busy hb sp a hbs⟩

/-- A dump is refused only where it names a byte and the core is busy (R41, U1). -/
theorem dumpBytes_cases (s : State) (sp : Space) (a b : Nat) :
    (∃ t, s.dumpBytes sp a b = .next t) ∨
      (s.busy = true ∧ a < b ∧ s.dumpBytes sp a b = .refused (.hostMemoryWhileBusy sp)) := by
  cases hb : s.busy
  · exact .inl ⟨_, dumpBytes_of_not_busy hb sp a b⟩
  · by_cases hab : a < b
    · exact .inr ⟨rfl, hab, dumpBytes_of_busy hb sp hab⟩
    · exact .inl ⟨_, by rw [dumpBytes, decide_eq_false hab, Bool.and_false]; rfl⟩

end State

/-- Settles O48, by cases on the host's next action: a load and a dump are the only ones that can
be refused, and the core's own step always answers a state. -/
theorem stepStopsOnlyOnBusyMemoryAccess : Obligations.StepStopsOnlyOnBusyMemoryAccess := by
  unfold Obligations.StepStopsOnlyOnBusyMemoryAccess
  intro s
  cases hs : s.script with
  | nil => exact .inl ⟨_, step_of_nil hs⟩
  | cons a rest =>
    rw [step_of_cons hs]
    cases a with
    | reset => exact .inl ⟨_, rfl⟩
    | resetWith _ => exact .inl ⟨_, rfl⟩
    | write w => exact .inl ((s.setScript rest).exists_writeReg_eq_next w)
    | read _ => exact .inl ⟨_, rfl⟩
    | load sp a bs =>
      exact ((s.setScript rest).loadBytes_cases sp a bs).imp_right fun ⟨hb, hbs, hr⟩ =>
        ⟨hb, sp, rest, hr, .inl ⟨a, bs, hbs, rfl⟩⟩
    | dump sp a b =>
      exact ((s.setScript rest).dumpBytes_cases sp a b).imp_right fun ⟨hb, hab, hr⟩ =>
        ⟨hb, sp, rest, hr, .inr ⟨a, b, hab, rfl⟩⟩
    | wait => exact .inl ⟨_, rfl⟩
    | run n =>
      cases n with
      | zero => exact .inl ⟨_, rfl⟩
      | succ n => exact .inl ⟨_, rfl⟩

end Sys2Proof.Machine

/-! Reset (spec 70_reset_and_hazards.md R230 to R234): the step a reset takes from any state, what
a running ENCODE or DECODE leaves behind when a reset cuts it short, and a command at once after
reset. -/

namespace Sys2Proof.Machine

/-! ### The reset input -/

/-- A reset, alone or together with a host write, has the effect of the reset input: the write is
lost (R208, R230). -/
theorem step_reset {s : State} {a : HostAction} {rest : List HostAction}
    (hs : s.script = a :: rest) (ha : a = .reset ∨ ∃ w, a = .resetWith w) :
    step s = .next (s.setScript rest).resetInput := by
  rcases ha with rfl | ⟨w, rfl⟩
  · exact step_of_cons hs
  · exact step_of_cons hs

namespace State

/-- `STATUS` after a reset: no bit is set (R32, R43). -/
@[simp] theorem resetInput_status (s : State) : s.resetInput.status = 0x00 :=
  status_of (f := .idle) (e := false) (t := false) (c := 0) rfl rfl rfl rfl (by decide)

/-- A reset writes no memory (R230). -/
@[simp] theorem resetInput_readMem (s : State) (sp : Space) (i : Nat) :
    s.resetInput.readMem sp i = s.readMem sp i := by cases sp <;> rfl

@[simp] theorem resetInput_readRange (s : State) (sp : Space) (i j : Nat) :
    s.resetInput.readRange sp i j = s.readRange sp i j :=
  readRange_congr fun k _ _ => s.resetInput_readMem sp k

end State

/-- Settles O51: the reset input's result has the reset state's own registers, whatever the state
was, and the memories of before. -/
theorem resetFromAnyState : Obligations.ResetFromAnyState := by
  unfold Obligations.ResetFromAnyState
  intro s a rest hs ha
  exact ⟨_, step_reset hs ha, rfl, rfl, rfl, rfl, rfl, rfl, rfl, State.resetInput_status _, rfl,
    rfl, rfl, rfl, rfl, rfl, rfl, rfl, rfl, rfl, rfl, rfl, rfl⟩

/-! ### A reset during an operation -/

namespace State

/-- The channel bytes that an ENCODE has rewritten after `k` core steps, by the bits of `pack`
(R127). -/
theorem Encoded.readMem_of_lt {s v : State} {k : Nat} (h : s.Encoded k v) (hk : k ≤ s.nbits)
    {i : Nat} (hi : i < k) {b : Bool} (hb : (Codec.pack s.payload)[i]? = some b) :
    v.readMem .c i = (s.readMem .c i &&& 0xFE) ||| (if b then 0x01 else 0x00) := by
  obtain rfl : s.frameBit i = b := by
    simpa [s.pack_payload_getElem? (Nat.lt_of_lt_of_le hi hk)] using hb
  rw [h.channel, if_pos hi, setLsb_eq_or]

/-- The channel bytes that an ENCODE has not reached after `k` core steps (R127). -/
theorem Encoded.readMem_of_le {s v : State} {k : Nat} (h : s.Encoded k v) {i : Nat}
    (hi : k ≤ i) : v.readMem .c i = s.readMem .c i := by
  rw [h.channel, if_neg (Nat.not_lt.mpr hi)]

/-- An ENCODE writes neither P nor O (R124). -/
theorem Encoded.memP_memO {s v : State} {k : Nat} (h : s.Encoded k v) :
    v.memP = s.memP ∧ v.memO = s.memO := by
  obtain ⟨a, b, r, m, rfl⟩ := h.frame
  exact ⟨rfl, rfl⟩

/-- A running DECODE has in O the bytes of the groups it has read whole (R150). -/
theorem DecodeInv.readRange_o {s : State} (h : s.DecodeInv) :
    s.readRange .o 0 (s.idx / 8) = (Codec.groupBytes s.channel).take (s.idx / 8) := by
  rw [← h.olen]
  exact h.output

end State

/-- Settles O52: the ENCODE has come to its first `m` bits, and the reset keeps the memories. -/
theorem resetDuringEncode : Obligations.ResetDuringEncode := by
  unfold Obligations.ResetDuringEncode
  intro s m hb hs hfits hm
  have h := State.coreSteps_startEncode (s := s) hfits hm
  obtain ⟨hP, hO⟩ := h.memP_memO
  refine ⟨s.startEncode, s.startEncode.coreSteps m, _, exec_encode_of_fits hb hfits,
    run_eq_coreSteps (s := s.startEncode) hs m, h.fsm, h.idx, step_reset rfl (.inl rfl), rfl,
    State.resetInput_status _, fun i b hi hbit => ?_, fun i hi => ?_, hP, hO⟩
  · rw [State.resetInput_readMem, State.setScript_readMem]
    exact h.readMem_of_lt hm hi hbit
  · rw [State.resetInput_readMem, State.setScript_readMem]
    exact h.readMem_of_le hi

/-- Settles O53: the bytes appended so far are the running DECODE's invariant, and the reset keeps
the memories. -/
theorem resetDuringDecode : Obligations.ResetDuringDecode := by
  unfold Obligations.ResetDuringDecode
  intro s rest h hf hs
  refine ⟨_, step_reset hs (.inl rfl), rfl, rfl, ?_, rfl⟩
  rw [State.resetInput_readRange, State.setScript_readRange]
  exact (h.decoding hf).readRange_o

/-! ### A command at once after reset -/

/-- `STATUS` of a DECODE that ends at its first step: `FIN` alone (R32, R153). -/
theorem State.status_decExhaust_acceptDecode (s : State) :
    s.acceptDecode.decExhaust.status = 0x02 :=
  status_of (f := .finished) (e := false) (t := false) (c := 0) rfl rfl rfl rfl (by decide)

/-- Settles O54: with `PLEN` and `CLEN` 0 the ENCODE does not fit, and the DECODE has no channel
byte to read. -/
theorem commandsRightAfterReset : Obligations.CommandsRightAfterReset := by
  unfold Obligations.CommandsRightAfterReset
  have hlong : State.reset.clen < State.reset.nbits := by decide
  have hend : step State.reset.acceptDecode = .next State.reset.acceptDecode.decExhaust := by
    rw [step_of_nil rfl, State.coreStep_decExhaust rfl (Nat.le_refl 0)]
  exact ⟨⟨_, exec_encode_of_not_fits rfl hlong, State.status_raise_capacityError _⟩,
    _, _, exec_decode_of_not_busy rfl, hend, State.status_decExhaust_acceptDecode _, rfl⟩

end Sys2Proof.Machine
